-- ==== Sys2Proof/Word.lean ====
section
/-! DEFINITION. The value every memory cell, channel element and the register `rb` holds: the spec's
`Int64` (spec/00_scope.md R5, R7), the integers -2^63 to 2^63 - 1. -/

namespace Sys2Proof

/-- The spec's `Int64` (R7, D1). The model reads a word only through `Int64.toInt`, and makes one only
from an integer that is in range; Lean's wrapping operations on this type are never used (R10).
PRESUMED (R7's general-knowledge passage, log 2): Lean holds it as 64 bits, two's complement; safe,
since no rule depends on the pattern. -/
abbrev Word := Int64

end Sys2Proof
end

