-- ==== Sys2Proof/Config.lean ====
section
/-! DEFINITION. What is fixed for the machine (spec/00_scope.md R5), and the one parameter the spec
leaves open (spec/92_eei_decisions.md D23). -/

namespace Sys2Proof

/-- `MININT` = -2^63 (R5). -/
def minInt : Int := -9223372036854775808

/-- `MAXINT` = 2^63 - 1 (R5). -/
def maxInt : Int := 9223372036854775807

/-- `MAXADDR`, the highest memory address, = `MAXINT` (R5, R40, D3). -/
def maxAddr : Nat := 9223372036854775807

/-- What a host-side feeder may do with an input line that is no Int64 decimal integer
(D23: "reject the line, fail the feeder, or stop the run"). -/
inductive BadInputLinePolicy where
  | rejectLine
  | failFeeder
  | stopRun
  deriving DecidableEq, Repr, Inhabited

/-- D23's `bad_input_line_policy`, left open by the spec: an uninterpreted constant (log 10). It
belongs to the feeder outside the core; whatever it is, the line never becomes a channel value. -/
opaque Config.badInputLinePolicy : BadInputLinePolicy

end Sys2Proof
end

