-- ==== Sys2Proof/Syntax.lean ====
section
/-! DEFINITION. The instructions as syntax: one constructor of `Instr` per row of
spec/opcode_table.json (spec/30_encoding.md R62, R63). -/

namespace Sys2Proof

/-- The three parameter modes (R66). -/
inductive Mode where
  | position
  | immediate
  | relative
  deriving DecidableEq, Repr

/-- One operand as decoded: its mode tag and its operand cell "taken verbatim from memory, not yet
resolved" (R33, R68). -/
structure Operand where
  mode : Mode
  cell : Word
  deriving DecidableEq, Repr

/-- The closed opcode set (R62), by the document's names. -/
inductive Opcode where
  | add
  | multiply
  | input
  | output
  | jumpIfNotZero
  | jumpIfZero
  | lessThan
  | equals
  | adjustRelativeBase
  | halt
  deriving DecidableEq, Repr

/-- The decoded instruction (R33, R63): operands in ascending index, `d` a write target, every other
operand a read operand. -/
inductive Instr where
  /-- ADD a, b, d: opcode 1, format F3 (R100). -/
  | add (a b d : Operand)
  /-- MUL a, b, d: opcode 2, format F3 (R101). -/
  | multiply (a b d : Operand)
  /-- IN d: opcode 3, format F1W (R110). -/
  | input (d : Operand)
  /-- OUT a: opcode 4, format F1R (R111). -/
  | output (a : Operand)
  /-- JNZ a, t: opcode 5, format F2 (R120). -/
  | jumpIfNotZero (a t : Operand)
  /-- JZ a, t: opcode 6, format F2 (R121). -/
  | jumpIfZero (a t : Operand)
  /-- LT a, b, d: opcode 7, format F3 (R130). -/
  | lessThan (a b d : Operand)
  /-- EQ a, b, d: opcode 8, format F3 (R131). -/
  | equals (a b d : Operand)
  /-- ARB a: opcode 9, format F1R (R140). -/
  | adjustRelativeBase (a : Operand)
  /-- HLT: opcode 99, format F0 (R150). -/
  | halt
  deriving DecidableEq, Repr

/-- Which opcode an instruction has. -/
def Instr.opcode : Instr → Opcode
  | .add _ _ _ => .add
  | .multiply _ _ _ => .multiply
  | .input _ => .input
  | .output _ => .output
  | .jumpIfNotZero _ _ => .jumpIfNotZero
  | .jumpIfZero _ _ => .jumpIfZero
  | .lessThan _ _ _ => .lessThan
  | .equals _ _ _ => .equals
  | .adjustRelativeBase _ => .adjustRelativeBase
  | .halt => .halt

/-- The operands in ascending index (R13, R63). -/
def Instr.operands : Instr → List Operand
  | .add a b d => [a, b, d]
  | .multiply a b d => [a, b, d]
  | .input d => [d]
  | .output a => [a]
  | .jumpIfNotZero a t => [a, t]
  | .jumpIfZero a t => [a, t]
  | .lessThan a b d => [a, b, d]
  | .equals a b d => [a, b, d]
  | .adjustRelativeBase a => [a]
  | .halt => []

/-- The write target, for the formats that have one (R63: operand 2 of F3, operand 0 of F1W). -/
def Instr.writeTarget : Instr → Option Operand
  | .add _ _ d => some d
  | .multiply _ _ d => some d
  | .input d => some d
  | .output _ => none
  | .jumpIfNotZero _ _ => none
  | .jumpIfZero _ _ => none
  | .lessThan _ _ d => some d
  | .equals _ _ d => some d
  | .adjustRelativeBase _ => none
  | .halt => none

/-- The total number of cells, instruction word included: 1 plus the operand count (R60, R62, R69). -/
def Instr.length (i : Instr) : Nat := i.operands.length + 1

end Sys2Proof
end

