-- ==== Sys2Proof/Decode.lean ====
section
/-! DEFINITION. The decoder, total on any cells (spec/30_encoding.md R60 to R75), the encoder written
from the same tables (R61, R62, R78), and the bridge from the opcode table's bit numbering to cells. -/

namespace Sys2Proof

/-- `digit_k(v)`, the decimal digit of weight 10^k (spec/00_scope.md R8). -/
def digit (k v : Nat) : Nat := v / 10 ^ k % 10

/-- The opcode map, first column of R62's table. -/
def opcodeCode : Opcode → Nat
  | .add => 1
  | .multiply => 2
  | .input => 3
  | .output => 4
  | .jumpIfNotZero => 5
  | .jumpIfZero => 6
  | .lessThan => 7
  | .equals => 8
  | .adjustRelativeBase => 9
  | .halt => 99

/-- The opcode map read the other way; none for the ninety illegal values (R62, R70). -/
def opcodeOf (code : Nat) : Option Opcode :=
  if code = 1 then some .add
  else if code = 2 then some .multiply
  else if code = 3 then some .input
  else if code = 4 then some .output
  else if code = 5 then some .jumpIfNotZero
  else if code = 6 then some .jumpIfZero
  else if code = 7 then some .lessThan
  else if code = 8 then some .equals
  else if code = 9 then some .adjustRelativeBase
  else if code = 99 then some .halt
  else none

/-- The mode a digit selects; none for 3 to 9 (R66, R72). -/
def modeOf (d : Nat) : Option Mode :=
  if d = 0 then some .position
  else if d = 1 then some .immediate
  else if d = 2 then some .relative
  else none

/-- The digit of a mode (R66). -/
def modeDigit : Mode → Nat
  | .position => 0
  | .immediate => 1
  | .relative => 2

/-- R75: "exactly one of: a decoded instruction, fault UnknownOpcode, fault InvalidParameterMode". -/
inductive Decoded where
  | instr (i : Instr)
  | unknownOpcode
  | invalidParameterMode
  deriving DecidableEq, Repr

/-- The cell at offset `k` from the instruction word; a cell the list does not hold is one never
written, which reads 0 (spec/20_memory.md R43). -/
def cellAt (cells : List Word) (k : Nat) : Word := cells.getD k 0

/-- Operand `k` of the word `w`: its mode is the digit of weight 10^(k+2) (R61, R64, R65), its cell the
one at offset `k + 1` (R60, R13). None when the digit is no mode. -/
def operandAt (k w : Nat) (cells : List Word) : Option Operand :=
  match modeOf (digit (k + 2) w) with
  | some m => some ⟨m, cellAt cells (k + 1)⟩
  | none => none

/-- Formats F1R and F1W (R63). -/
def decodeOne (mk : Operand → Instr) (w : Nat) (cells : List Word) : Decoded :=
  match operandAt 0 w cells with
  | some a => .instr (mk a)
  | none => .invalidParameterMode

/-- Format F2 (R63). -/
def decodeTwo (mk : Operand → Operand → Instr) (w : Nat) (cells : List Word) : Decoded :=
  match operandAt 0 w cells, operandAt 1 w cells with
  | some a, some b => .instr (mk a b)
  | _, _ => .invalidParameterMode

/-- Format F3 (R63). -/
def decodeThree (mk : Operand → Operand → Operand → Instr) (w : Nat) (cells : List Word) : Decoded :=
  match operandAt 0 w cells, operandAt 1 w cells, operandAt 2 w cells with
  | some a, some b, some d => .instr (mk a b d)
  | _, _, _ => .invalidParameterMode

/-- R75 for a word that is not negative: the opcode first, then the modes of its own operands only, so
that excess digits are ignored (R73). -/
def decodeWord (w : Nat) (cells : List Word) : Decoded :=
  match opcodeOf (w % 100) with
  | none => .unknownOpcode
  | some .add => decodeThree .add w cells
  | some .multiply => decodeThree .multiply w cells
  | some .input => decodeOne .input w cells
  | some .output => decodeOne .output w cells
  | some .jumpIfNotZero => decodeTwo .jumpIfNotZero w cells
  | some .jumpIfZero => decodeTwo .jumpIfZero w cells
  | some .lessThan => decodeThree .lessThan w cells
  | some .equals => decodeThree .equals w cells
  | some .adjustRelativeBase => decodeOne .adjustRelativeBase w cells
  | some .halt => .instr .halt

/-- The decoder (R75): the first cell is the instruction word, the operand cells follow it. A negative
word is UnknownOpcode before any field is cut from it (R71, C6). -/
def decode (cells : List Word) : Decoded :=
  if (cellAt cells 0).toInt < 0 then .unknownOpcode
  else decodeWord (cellAt cells 0).toInt.toNat cells

/-- A list of mode digits as the word's prefix, operand 0 in the ones digit (R64). -/
def modesPrefix : List Operand → Nat
  | [] => 0
  | o :: os => modeDigit o.mode + 10 * modesPrefix os

/-- The canonical instruction word, `modes_prefix * 100 + opcode` (R61, R78). -/
def headWord (i : Instr) : Nat := modesPrefix i.operands * 100 + opcodeCode i.opcode

/-- The encoder: the instruction word, then the operand cells, operand 0 first (R60, R78). -/
def encode (i : Instr) : List Word :=
  Int64.ofNat (headWord i) :: i.operands.map (·.cell)

/-- The cells of an instruction whose bits are `w`, numbered as the opcode-table interface numbers
them: the low 64 bits are the instruction word, each next 64 bits the next operand cell, every bit
from `nbits` up is 0, and a cell is held as its value mod 2^64 (R7). DESIGN CHOICE (log 4): the
encoding is decimal and the spec numbers no bits (R7, R76). -/
def tableCells (nbits w : Nat) : List Word :=
  let v := w % 2 ^ nbits
  [Int64.ofNat (v % 2 ^ 64), Int64.ofNat (v / 2 ^ 64 % 2 ^ 64),
    Int64.ofNat (v / 2 ^ 128 % 2 ^ 64), Int64.ofNat (v / 2 ^ 192 % 2 ^ 64)]

/-- The instruction the decoder reads from those cells; none where it raises a decode fault. -/
def decodeTableWord (nbits w : Nat) : Option Instr :=
  match decode (tableCells nbits w) with
  | .instr i => some i
  | .unknownOpcode => none
  | .invalidParameterMode => none

end Sys2Proof
end

