-- ==== Sys2Proof/Machine/State.lean ====
section
/-! DEFINITION. Everything the spec gives one instance to hold (spec/10_state.md R20 to R37), the
reasons the machine has no next state, and the state after reset. -/

namespace Sys2Proof.Machine

/-- The run state (R26). -/
inductive RunState where
  | running
  | blocked
  | halted
  | failed
  deriving DecidableEq, Repr

/-- `err.kind` (R27, R160); `noError` is the spec's None. -/
inductive ErrKind where
  | noError
  | unknownOpcode
  | invalidParameterMode
  | invalidWriteTarget
  | negativeAddress
  | malformedProgramText
  | arithmeticOverflow
  deriving DecidableEq, Repr

/-- The error record `err` (R27). Its `code` is a function of `kind` (`errCode`), so it is not stored
a second time. -/
structure ErrorRecord where
  kind : ErrKind
  ip   : Nat
  word : Word
  addr : Option Int
  deriving DecidableEq, Repr

/-- What a rule may `raise` (R9, R160): a fatal error of the instance, with the address that
NegativeAddress carries. -/
inductive Trap where
  | unknownOpcode
  | invalidParameterMode
  | invalidWriteTarget
  | negativeAddress (a : Int)
  | malformedProgramText
  | arithmeticOverflow
  deriving DecidableEq, Repr

/-- One memory cell that does not hold 0: its address and its value (R40; log 1: the unit is the whole
cell, R47 has no bytes). -/
abbrev Cell := Nat × Word

/-- The memory `M` (R25): the cells that differ from 0. An address the list does not hold reads 0
(R43: "reading any never-written address ... yields `0`"). -/
abbrev Memory := List Cell

/-- Addresses at least `lo`, strictly rising, at most `MAXADDR`, and no cell that holds 0. -/
def Memory.wfFrom (lo : Nat) : Memory → Bool
  | [] => true
  | (a, v) :: m => decide (lo ≤ a) && decide (a ≤ maxAddr) && decide (v ≠ 0) && Memory.wfFrom (a + 1) m

/-- The canonical form: equal memories are equal lists. -/
def Memory.wf (m : Memory) : Bool := Memory.wfFrom 0 m

/-- One instance (R20). `ip` R21, `rb` R23, `mem` R25, `st` R26, `err` R27, `inCh` the content of the
input channel R28 and `outCh` of the output channel R29, the oldest value first. -/
structure State where
  ip    : Nat
  rb    : Word
  mem   : Memory
  st    : RunState
  err   : ErrorRecord
  inCh  : List Word
  outCh : List Word
  deriving DecidableEq, Repr

/-- Why the machine has no next state. The spec's own errors are not here: they are next states, in
run state Failed (R161; log 5). -/
inductive Fault where
  /-- Raised by `step` on a Halted instance: R95, "no step exists". Safe: nothing goes on. -/
  | noStepHalted
  /-- Raised by `step` on a Failed instance: R95, "no step exists". Safe: nothing goes on. -/
  | noStepFailed
  deriving DecidableEq, Repr

/-- An instruction without a meaning. -/
inductive Refusal where
  /-- Raised by an arm of `exec` that gives no meaning; no arm does. Safe: nothing goes on. -/
  | notModelled (mnemonic : String)
  deriving DecidableEq, Repr

/-- The outcome type of a step of this machine. R11's four outcomes next, halt, fault and hold are all
`next` here, told apart by the run state of the next state. -/
abbrev Outcome := Host.Outcome State Fault Refusal

/-- The error record while nothing has failed (R37): kind None, the other fields 0 or none. -/
def ErrorRecord.empty : ErrorRecord := ⟨.noError, 0, 0, none⟩

/-- The state after reset (R37, R201), with no program loaded: memory reads 0 everywhere and both
channels are empty (D21). A program is loaded from outside (`create`, log 3). -/
def State.reset : State :=
  ⟨0, 0, [], .running, ErrorRecord.empty, [], []⟩

end Sys2Proof.Machine
end

