-- ==== Sys2Proof/Machine/Ops.lean ====
section
/-! DEFINITION. The named operations over the state that every meaning shares: checked arithmetic
(spec/00_scope.md R10), memory (spec/20_memory.md R41, R42), the channel ports (spec/10_state.md R30 to
R32), the successor address (R85), and taking an error (spec/60_exceptions.md R161). -/

namespace Sys2Proof.Machine

/-! ## Checked arithmetic -/

/-- An integer as an Int64, when it is one; else ArithmeticOverflow (R10). -/
def narrow (v : Int) : Except Trap Word :=
  if minInt ≤ v ∧ v ≤ maxInt then .ok (Int64.ofInt v) else .error .arithmeticOverflow

/-- `add64` (R10). -/
def add64 (a b : Word) : Except Trap Word := narrow (a.toInt + b.toInt)

/-- `mul64` (R10). -/
def mul64 (a b : Word) : Except Trap Word := narrow (a.toInt * b.toInt)

/-! ## Memory -/

/-- `M[a]`, 0 where the list holds no cell (R25, R43). -/
def Memory.read : Memory → Nat → Word
  | [], _ => 0
  | (b, v) :: m, a => if a = b then v else Memory.read m a

/-- Put a cell before the first cell of a higher address. -/
def Memory.insert (a : Nat) (v : Word) : Memory → Memory
  | [] => [(a, v)]
  | (b, u) :: m => if a < b then (a, v) :: (b, u) :: m else (b, u) :: Memory.insert a v m

/-- Drop every cell of an address, which then reads 0. -/
def Memory.erase (a : Nat) : Memory → Memory
  | [] => []
  | (b, u) :: m => if a = b then Memory.erase a m else (b, u) :: Memory.erase a m

/-- `M[a] <- v`, every other cell unchanged (R42), in canonical form: a cell that becomes 0 is not
listed. -/
def Memory.write (m : Memory) (a : Nat) (v : Word) : Memory :=
  if v = 0 then Memory.erase a m else Memory.insert a v (Memory.erase a m)

/-- An integer as an address; a negative one raises NegativeAddress (R41, R42, R44). -/
def checkAddress (a : Int) : Except Trap Nat :=
  if a < 0 then .error (.negativeAddress a) else .ok a.toNat

/-- `MemRead(a)` (R41). -/
def memRead (a : Int) (s : State) : Except Trap Word := do
  let p ← checkAddress a
  .ok (Memory.read s.mem p)

/-- `MemWrite(t, v)` at an address that operand resolution has checked, so that it "cannot fault"
(R42, R88, C10). -/
def memWrite (t : Nat) (v : Word) (s : State) : State :=
  { s with mem := Memory.write s.mem t v }

/-! ## Registers and run state -/

/-- `ip <- target`, the last effect of a completed instruction, with `st <- Running` (R80, R92, R94). -/
def goto (target : Nat) (s : State) : State := { s with ip := target, st := .running }

/-- `rb <- v` (R93, R140). -/
def setRb (v : Word) (s : State) : State := { s with rb := v }

/-- `st <- Halted` and nothing else (R84, R150). -/
def halted (s : State) : State := { s with st := .halted }

/-- `st <- Blocked` and nothing else: the outcome `hold` (R96, R110). -/
def hold (s : State) : State := { s with st := .blocked }

/-! ## Channel ports -/

/-- `InHead()`: the head value of `IN`, not removed; none is the spec's `empty` (R30). -/
def inHead (s : State) : Option Word := s.inCh.head?

/-- The removal done by `InTake()`; the value returned is the one `inHead` gives (R31). -/
def inTake (s : State) : State := { s with inCh := s.inCh.tail }

/-- `OutPut(v)`: append at the tail of `OUT` (R32). -/
def outPut (v : Word) (s : State) : State := { s with outCh := s.outCh ++ [v] }

/-! ## The successor address and the fetch -/

/-- `nip = ip + n + 1` for an instruction of `n` operands; above `MAXADDR` it raises
ArithmeticOverflow, for every non-halt instruction (R85, D5). -/
def successor (n : Nat) (s : State) : Except Trap Nat :=
  if s.ip + n + 1 ≤ maxAddr then .ok (s.ip + n + 1) else .error .arithmeticOverflow

/-- The cells a fetch may need: the instruction word and the three cells after it (R60, R81, R86). The
decoder ignores those beyond the instruction's length, and reads have no side effect (R49). DEDUCED,
safe (log 8): one past `MAXADDR` reads 0 and is used by no instruction, because R85 raises first. -/
def fetchCells (s : State) : List Word :=
  [Memory.read s.mem s.ip, Memory.read s.mem (s.ip + 1), Memory.read s.mem (s.ip + 2),
    Memory.read s.mem (s.ip + 3)]

/-! ## Taking an error

There is no handler, vector, saved status or mode (R169), so taking an error is the transition to Failed;
and no return from it exists (R170: "no way to resume"), so nothing stands beside it. -/

/-- The kind a trap is recorded as (R160). -/
def trapKind : Trap → ErrKind
  | .unknownOpcode => .unknownOpcode
  | .invalidParameterMode => .invalidParameterMode
  | .invalidWriteTarget => .invalidWriteTarget
  | .negativeAddress _ => .negativeAddress
  | .malformedProgramText => .malformedProgramText
  | .arithmeticOverflow => .arithmeticOverflow

/-- `err.addr`: the negative address of NegativeAddress, none for every other kind (R27, R161). -/
def trapAddr : Trap → Option Int
  | .unknownOpcode => none
  | .invalidParameterMode => none
  | .invalidWriteTarget => none
  | .negativeAddress a => some a
  | .malformedProgramText => none
  | .arithmeticOverflow => none

/-- `raise E(info)` (R161): `st` becomes Failed and `err` is written; nothing else changes. -/
def raise (e : Trap) (s : State) : State :=
  { s with
    st := .failed
    err := ⟨trapKind e, s.ip, Memory.read s.mem s.ip, trapAddr e⟩ }

/-- The end of a step (R80): either all its effects, or, when a rule raised, the error taken in the
state before the step. -/
def conclude (s : State) : Except Trap State → Outcome
  | .ok t => .next t
  | .error e => .next (raise e s)

end Sys2Proof.Machine
end

