-- ==== Sys2Proof/Machine/Operands.lean ====
section
/-! DEFINITION. Operand resolution, every form (spec/40_cycle_and_operands.md R87, R88), and the steps
that instructions of one format share (R80, R89). -/

namespace Sys2Proof.Machine

/-- `resolve_read` (R87): the value of a read operand. In relative mode the sum is formed, and may
overflow, before its sign is looked at. -/
def resolveRead (o : Operand) (s : State) : Except Trap Word :=
  match o.mode with
  | .position => memRead o.cell.toInt s
  | .immediate => .ok o.cell
  | .relative => do
    let a ← add64 s.rb o.cell
    memRead a.toInt s

/-- `resolve_write` (R88): the address of a write target. -/
def resolveWrite (o : Operand) (s : State) : Except Trap Nat :=
  match o.mode with
  | .position => checkAddress o.cell.toInt
  | .immediate => .error .invalidWriteTarget
  | .relative => do
    let a ← add64 s.rb o.cell
    checkAddress a.toInt

/-- Format F3, common to add, multiply, less-than and equals (R80, R89, R100): successor, operands 0, 1,
2 in that order, then the operation, then the one write, then `ip`. -/
def storeResult (op : Word → Word → Except Trap Word) (a b d : Operand) (s : State) : Outcome :=
  conclude s (do
    let nip ← successor 3 s
    let v0 ← resolveRead a s
    let v1 ← resolveRead b s
    let t ← resolveWrite d s
    let r ← op v0 v1
    .ok (goto nip (memWrite t r s)))

/-- Where a jump goes: its target if taken, where a negative value raises NegativeAddress (R122), else the
successor address (R120). -/
def jumpTarget (taken : Bool) (v : Word) (nip : Nat) : Except Trap Nat :=
  match taken with
  | true => checkAddress v.toInt
  | false => .ok nip

/-- Format F2, common to the two jumps (R120, R121): both operands are resolved whether or not the jump
is taken (R89); a taken jump to a negative target raises NegativeAddress (R122). -/
def jumpWhen (test : Word → Bool) (a t : Operand) (s : State) : Outcome :=
  conclude s (do
    let nip ← successor 2 s
    let v0 ← resolveRead a s
    let v1 ← resolveRead t s
    let target ← jumpTarget (test v0) v1 nip
    .ok (goto target s))

end Sys2Proof.Machine
end

