-- ==== Sys2Proof/Machine/Arith.lean ====
section
/-! DEFINITION. add and multiply (spec/41_arithmetic.md R100 to R102). -/

namespace Sys2Proof.Machine

/-- ADD a, b, d (R100): the exact signed sum, or ArithmeticOverflow. -/
def execAdd (a b d : Operand) (s : State) : Outcome := storeResult add64 a b d s

/-- MUL a, b, d (R101): the exact signed product, or ArithmeticOverflow. -/
def execMultiply (a b d : Operand) (s : State) : Outcome := storeResult mul64 a b d s

end Sys2Proof.Machine
end

