-- ==== Sys2Proof/Machine/Flags.lean ====
section
/-! DEFINITION. The hardware has no flags and no condition codes (spec/10_state.md R24). What stands in
their place: the truth values the comparisons write to memory (spec/44_compare.md R130, R131) and the
zero test of the jumps (spec/43_jumps.md R120, R121). -/

namespace Sys2Proof.Machine

/-- 1 for true, 0 for false: "exactly 1 or exactly 0" (R130). -/
def truth (b : Bool) : Word := if b then 1 else 0

/-- less-than, of signed mathematical integers, strict (R130). -/
def lessThanValue (a b : Word) : Word := truth (decide (a.toInt < b.toInt))

/-- equals, of whole Int64 values (R131). -/
def equalsValue (a b : Word) : Word := truth (decide (a.toInt = b.toInt))

/-- The zero test, on the whole Int64 (R120, R121). -/
def isZero (v : Word) : Bool := decide (v.toInt = 0)

end Sys2Proof.Machine
end

