-- ==== Sys2Proof/Machine/Compare.lean ====
section
/-! DEFINITION. less-than and equals (spec/44_compare.md R130 to R132). -/

namespace Sys2Proof.Machine

/-- LT a, b, d (R130): 1 if a < b, else 0; the comparison raises nothing. -/
def execLessThan (a b d : Operand) (s : State) : Outcome :=
  storeResult (fun v w => .ok (lessThanValue v w)) a b d s

/-- EQ a, b, d (R131): 1 if a = b, else 0; the comparison raises nothing. -/
def execEquals (a b d : Operand) (s : State) : Outcome :=
  storeResult (fun v w => .ok (equalsValue v w)) a b d s

end Sys2Proof.Machine
end

