-- ==== Sys2Proof/Machine/Halt.lean ====
section
/-! DEFINITION. halt (spec/46_halt.md R150, R151). -/

namespace Sys2Proof.Machine

/-- HLT (R150): `st <- Halted`; `ip` stays at the halt word (D18), and no successor address is computed
(R84), so a halt at `MAXADDR` is legal. -/
def execHalt (s : State) : Outcome := .next (halted s)

end Sys2Proof.Machine
end

