-- ==== Sys2Proof/Machine/Io.lean ====
section
/-! DEFINITION. input and output (spec/42_io.md R110, R111). -/

namespace Sys2Proof.Machine

/-- IN d (R110): the target is resolved, and every error raised, before the channel is looked at (D10,
C4); an empty channel holds the instance at this instruction, else the oldest value is taken and
written. -/
def execInput (d : Operand) (s : State) : Outcome :=
  conclude s (do
    let nip ← successor 1 s
    let t ← resolveWrite d s
    match inHead s with
    | none => .ok (hold s)
    | some x => .ok (goto nip (memWrite t x (inTake s))))

/-- OUT a (R111): append the value; never blocks. -/
def execOutput (a : Operand) (s : State) : Outcome :=
  conclude s (do
    let nip ← successor 1 s
    let v ← resolveRead a s
    .ok (goto nip (outPut v s)))

end Sys2Proof.Machine
end

