-- ==== Sys2Proof/Machine/Jump.lean ====
section
/-! DEFINITION. jump-if-not-zero and jump-if-zero (spec/43_jumps.md R120 to R123). -/

namespace Sys2Proof.Machine

/-- JNZ a, t (R120). -/
def execJumpIfNotZero (a t : Operand) (s : State) : Outcome := jumpWhen (fun v => !isZero v) a t s

/-- JZ a, t (R121). -/
def execJumpIfZero (a t : Operand) (s : State) : Outcome := jumpWhen isZero a t s

end Sys2Proof.Machine
end

