-- ==== Sys2Proof/Machine/RelBase.lean ====
section
/-! DEFINITION. adjust-relative-base (spec/45_relbase.md R140). -/

namespace Sys2Proof.Machine

/-- ARB a (R140): the operand, read through the old `rb`, is added to `rb`; ArithmeticOverflow when the
sum is no Int64. -/
def execAdjustRelativeBase (a : Operand) (s : State) : Outcome :=
  conclude s (do
    let nip ← successor 1 s
    let v ← resolveRead a s
    let r ← add64 s.rb v
    .ok (goto nip (setRb r s)))

end Sys2Proof.Machine
end

