-- ==== Sys2Proof/Machine/Dispatch.lean ====
section
/-! DEFINITION. One arm per instruction: which meaning runs (spec/30_encoding.md R62). -/

namespace Sys2Proof.Machine

def exec (i : Instr) (s : State) : Host.Outcome State Fault Refusal :=
  match i with
  | .add a b d => Sys2Proof.Machine.execAdd a b d s
  | .multiply a b d => Sys2Proof.Machine.execMultiply a b d s
  | .input d => Sys2Proof.Machine.execInput d s
  | .output a => Sys2Proof.Machine.execOutput a s
  | .jumpIfNotZero a t => Sys2Proof.Machine.execJumpIfNotZero a t s
  | .jumpIfZero a t => Sys2Proof.Machine.execJumpIfZero a t s
  | .lessThan a b d => Sys2Proof.Machine.execLessThan a b d s
  | .equals a b d => Sys2Proof.Machine.execEquals a b d s
  | .adjustRelativeBase a => Sys2Proof.Machine.execAdjustRelativeBase a s
  | .halt => Sys2Proof.Machine.execHalt s

end Sys2Proof.Machine
end

