-- ==== Sys2Proof/Machine/Cycle.lean ====
section
/-! DEFINITION. One pass of the Driver loop (spec/40_cycle_and_operands.md R80): fetch, decode, run; and
the terminal states, which take no step (R95). -/

namespace Sys2Proof.Machine

/-- The step of a Running or Blocked instance (R80 to R84): a decode error is raised, anything else is
run. A Blocked instance runs it afresh from the fetch (R96 (a), log 6). -/
def cycle (s : State) : Outcome :=
  match decode (fetchCells s) with
  | .instr i => exec i s
  | .unknownOpcode => .next (raise .unknownOpcode s)
  | .invalidParameterMode => .next (raise .invalidParameterMode s)

/-- The whole step: none from Halted or Failed (R95, log 5). -/
def driver (s : State) : Outcome :=
  match s.st with
  | .running => cycle s
  | .blocked => cycle s
  | .halted => .fault .noStepHalted
  | .failed => .fault .noStepFailed

end Sys2Proof.Machine
end

