-- ==== Sys2Proof/Machine/Load.lean ====
section
/-! DEFINITION. Reset and program load (spec/70_reset_and_hazards.md R200 to R205): the program text, its
errors, and the creation of an instance. A text is its list of characters. -/

namespace Sys2Proof.Machine

/-! ## Program text (R202) -/

/-- The characters the "single trim" removes (R202). DESIGN CHOICE (log 7): space, tab, newline and
carriage return; the spec says whitespace and shows spaces and a newline. -/
def isBlank (c : Char) : Bool := c = ' ' || c = '\t' || c = '\n' || c = '\r'

/-- "One trim of leading and trailing whitespace from the whole text" (R202). -/
def trim (text : List Char) : List Char :=
  ((text.dropWhile isBlank).reverse.dropWhile isBlank).reverse

/-- The tokens between commas; n commas make n + 1 tokens (R202). -/
def splitCommas : List Char → List (List Char)
  | [] => [[]]
  | c :: cs =>
    if c = ',' then [] :: splitCommas cs
    else match splitCommas cs with
      | [] => [[c]]
      | tok :: toks => (c :: tok) :: toks

/-- The value of an ASCII decimal digit; none for any other character (R202). -/
def digitValue (c : Char) : Option Nat :=
  if 48 ≤ c.toNat ∧ c.toNat ≤ 57 then some (c.toNat - 48) else none

/-- `digit*` after a prefix of value `acc`, most significant digit first (R202). -/
def parseDigits : Nat → List Char → Option Nat
  | acc, [] => some acc
  | acc, c :: cs =>
    match digitValue c with
    | some d => parseDigits (10 * acc + d) cs
    | none => none

/-- `digit+` (R202): at least one digit. -/
def parseNat (cs : List Char) : Option Nat :=
  match cs with
  | [] => none
  | _ :: _ => parseDigits 0 cs

/-- An integer that is an Int64, as a cell; none outside Int64 (R204). -/
def wordOf (v : Int) : Option Word :=
  match narrow v with
  | .ok w => some w
  | .error _ => none

/-- `token ::= "-"? digit+` (R202), with its value an Int64 (R204). -/
def parseToken (cs : List Char) : Option Word :=
  match cs with
  | [] => none
  | c :: ds =>
    if c = '-' then (parseNat ds).bind (fun n => wordOf (-(n : Int)))
    else (parseNat (c :: ds)).bind (fun n => wordOf (n : Int))

/-- Every token, in order; none as soon as one is malformed. -/
def parseTokens : List (List Char) → Option (List Word)
  | [] => some []
  | tok :: toks =>
    match parseToken tok, parseTokens toks with
    | some w, some ws => some (w :: ws)
    | _, _ => none

/-- The program a text stands for; none is MalformedProgramText (R202, R204). -/
def parseText (text : List Char) : Option (List Word) := parseTokens (splitCommas (trim text))

/-! ## Creating an instance (R200, R201, R203, R205) -/

/-- Consecutive cells from address `a` (R203). DESIGN CHOICE (log 15): a cell past `MAXADDR` has no
address and is dropped; no program is that long. -/
def loadCells : Nat → List Word → Memory → Memory
  | _, [], m => m
  | a, v :: vs, m => loadCells (a + 1) vs (if a ≤ maxAddr then Memory.write m a v else m)

/-- An instance created from the integers a text parses to, its `IN` seeded (R37, R201, R205). -/
def create (program seeds : List Word) : State :=
  { State.reset with mem := loadCells 0 program [], inCh := seeds }

/-- An instance created from program text (R200); a malformed text gives the Failed instance of R204,
which is `raise` (R161) in the instance with nothing loaded. DEDUCED (log 11): its seeds stay in `IN`. -/
def createFromText (text : List Char) (seeds : List Word) : State :=
  match parseText text with
  | some program => create program seeds
  | none => raise .malformedProgramText (create [] seeds)

/-! ## Writing decimal text (R77, R209) -/

/-- The ASCII digit of a value below 10. -/
def digitChar (d : Nat) : Char := Char.ofNat (48 + d)

/-- The shortest decimal form of a natural number below 10^(fuel + 1). -/
def natText : Nat → Nat → List Char
  | 0, n => [digitChar (n % 10)]
  | fuel + 1, n => if n < 10 then [digitChar n] else natText fuel (n / 10) ++ [digitChar (n % 10)]

/-- The shortest decimal form of an Int64, a leading minus sign for a negative value, no plus sign and no
leading zeros (R209, D22). Nineteen digits suffice (R61). -/
def wordText (v : Word) : List Char :=
  if v.toInt < 0 then '-' :: natText 20 v.toInt.natAbs else natText 20 v.toInt.natAbs

/-- Program text (R77): the list of a program's cells, separated by commas. -/
def programText : List Word → List Char
  | [] => []
  | [v] => wordText v
  | v :: vs => wordText v ++ ',' :: programText vs

end Sys2Proof.Machine
end

