-- ==== Sys2Proof/Machine/Step.lean ====
section
/-! DEFINITION. The step function, and the load of one instruction where the next fetch finds it. -/

namespace Sys2Proof.Machine

/-- One step of the machine (spec/40_cycle_and_operands.md R80, R95). -/
def step (s : State) : Host.Outcome State Fault Refusal := driver s

/-- `s` with one instruction's cells placed at `ip` as a loaded, Running instance has them (R37, log 4):
`step (s.withFetchWord nbits w)` fetches and runs it. -/
def State.withFetchWord (s : State) (nbits w : Nat) : State :=
  { s with mem := loadCells s.ip (tableCells nbits w) s.mem, st := .running, err := ErrorRecord.empty }

end Sys2Proof.Machine
end

