-- ==== Sys2Proof/Machine/Ports.lean ====
section
/-! DEFINITION. What the host may do to an instance between its steps, and what it sees
(spec/70_reset_and_hazards.md R207 to R209). The host never writes `ip`, `rb` or memory after reset. -/

namespace Sys2Proof.Machine

/-! ## STATUS -/

/-- `st` on the status port (R26, D13). -/
def statusCode : RunState → Nat
  | .running => 0
  | .blocked => 1
  | .halted => 2
  | .failed => 3

/-- `err.code` (R27, R160). -/
def errCode : ErrKind → Nat
  | .noError => 0
  | .unknownOpcode => 1
  | .invalidParameterMode => 2
  | .invalidWriteTarget => 3
  | .negativeAddress => 4
  | .malformedProgramText => 5
  | .arithmeticOverflow => 6

/-- The document's failing "opcode": `err.word mod 100` when the word is not negative (R27). -/
def errOpcode (e : ErrorRecord) : Option Nat :=
  if e.word.toInt < 0 then none else some (e.word.toInt.toNat % 100)

/-! ## IN and OUT

The moves on one instance. Whether the host holds the writer or the reader role of a channel (R183) is a
matter of the wiring, which `Network.hostFeed` and `Network.hostDrain` check; of an instance alone, with
nothing wired to it, it holds both. -/

/-- The host, or another instance's output, appends a value to `IN` (R28, R181, R208). -/
def feed (v : Word) (s : State) : State := { s with inCh := s.inCh ++ [v] }

/-- Several values appended, in order. -/
def feedAll (vs : List Word) (s : State) : State := { s with inCh := s.inCh ++ vs }

/-- A reader takes the oldest value of `OUT` (R182, R208); none while it is empty. -/
def drain (s : State) : Option (Word × State) :=
  match s.outCh with
  | [] => none
  | v :: vs => some (v, { s with outCh := vs })

/-- The host takes the oldest value left in `IN` by a reader that has halted (R185; DEDUCED, log 19). -/
def collect (s : State) : Option (Word × State) :=
  match s.st with
  | .running => none
  | .blocked => none
  | .halted =>
    match s.inCh with
    | [] => none
    | v :: vs => some (v, { s with inCh := vs })
  | .failed => none

/-- Whether the instance may take a step: it is Running, or Blocked with a value to take (R96, R186). -/
def mayStep (s : State) : Bool :=
  match s.st with
  | .running => true
  | .blocked => !s.inCh.isEmpty
  | .halted => false
  | .failed => false

/-! ## The wire format outside the core (R209) -/

/-- One output line: the shortest decimal form, then one newline (R209, D22). -/
def renderLine (v : Word) : List Char := wordText v ++ ['\n']

/-- One input line: a decimal integer and its newline (R209). DESIGN CHOICE (log 16): the integer is
spelled as a token of R202. None is a line that is no Int64 decimal integer. -/
def parseLine (line : List Char) : Option Word :=
  match line.reverse with
  | [] => none
  | c :: cs => if c = '\n' then parseToken cs.reverse else none

/-- What a line given to the feeder comes to. -/
inductive LineVerdict where
  /-- The value was appended to `IN`. -/
  | appended (s : State)
  /-- The line never becomes a channel value; the feeder follows the open policy (D23). -/
  | bad (policy : BadInputLinePolicy) (s : State)
  deriving DecidableEq, Repr

/-- The feeder given one line (R209). A bad line leaves the instance as it was, whatever the policy. -/
def feedLine (line : List Char) (s : State) : LineVerdict :=
  match parseLine line with
  | some v => .appended (feed v s)
  | none => .bad Config.badInputLinePolicy s

end Sys2Proof.Machine
end

