-- ==== Sys2Proof/Machine/Network.lean ====
section
/-! DEFINITION. Several instances wired by channels, and the host beside them (spec/60_exceptions.md R180 to
R190, spec/20_memory.md R57, spec/70_reset_and_hazards.md R208): a layer over `step`. The agents are the
instances and the host; which of them moves next is a free argument. -/

namespace Sys2Proof.Machine

/-- A topology: its instances; for each the instance whose `IN` its `OUT` is, none when the host drains it
(R184); and for each whether the host has stopped it (R188, R208). A channel between two instances is one
queue (R184: "shared ownership of that single queue, not a copy"): it is held once, in the reader's `inCh`,
and the writer's `outCh` stays empty (log 12). -/
structure Network where
  cores   : List State
  link    : List (Option Nat)
  stopped : List Bool
  deriving DecidableEq, Repr

/-! ## Wiring and roles -/

/-- Whose `IN` the `OUT` of instance `i` is. -/
def Network.reader (n : Network) (i : Nat) : Option Nat := (n.link[i]?).join

/-- The content of the output channel of instance `i`: the reader's `IN` when it is linked (R184). -/
def Network.outQueue (n : Network) (i : Nat) : List Word :=
  match n.reader i with
  | some j => ((n.cores[j]?).map (·.inCh)).getD []
  | none => ((n.cores[i]?).map (·.outCh)).getD []

/-- Whether the host has stopped instance `i` (R188). -/
def Network.isStopped (n : Network) (i : Nat) : Bool := (n.stopped[i]?).getD false

/-- The host holds the writer role of the `IN` of instance `j` (R183, R208): no instance's `OUT` is it. -/
def Network.hostWrites (n : Network) (j : Nat) : Bool :=
  decide (j < n.cores.length) && !n.link.contains (some j)

/-- The host holds the reader role of the `OUT` of instance `i` (R183, R208): it is no instance's `IN`. -/
def Network.hostReads (n : Network) (i : Nat) : Bool :=
  decide (i < n.cores.length) && (n.reader i).isNone

/-- A topology built by the host (R208 create): each instance from its own text and seeds, the seeds
appended before the first step, to linked channels too (R183). -/
def Network.create (members : List (List Char × List Word)) (link : List (Option Nat)) : Network :=
  ⟨members.map (fun m => createFromText m.1 m.2), link, members.map (fun _ => false)⟩

/-! ## The instances' moves -/

/-- Put `t` as the new state of instance `i`, and its new outputs on the channel they go to (R184). -/
def Network.deliver (n : Network) (i : Nat) (t : State) : Network :=
  match n.reader i with
  | none => { n with cores := n.cores.set i t }
  | some j =>
    { n with cores := (n.cores.set i { t with outCh := [] }).modify j (feedAll t.outCh) }

/-- One step of instance `i`, when it may take one (R186) and is not stopped (R188); none when not. -/
def Network.stepCore (n : Network) (i : Nat) : Option Network :=
  match n.cores[i]? with
  | none => none
  | some s =>
    if mayStep s && !n.isStopped i then
      match step s with
      | .next t => some (n.deliver i t)
      | .fault _ => none
      | .refused _ => none
    else none

/-! ## The host's moves (R208) -/

/-- Feed: the host appends any value to the `IN` of instance `j`, at any time, if it holds its writer
role. -/
def Network.hostFeed (n : Network) (j : Nat) (v : Word) : Option Network :=
  if n.hostWrites j then some { n with cores := n.cores.modify j (feed v) } else none

/-- Drain: the host takes the oldest value of the `OUT` of instance `i`, if it holds its reader role. -/
def Network.hostDrain (n : Network) (i : Nat) : Option (Word × Network) :=
  if n.hostReads i then
    (n.cores[i]?).bind (fun s =>
      (drain s).map (fun p => (p.1, { n with cores := n.cores.set i p.2 })))
  else none

/-- The host takes a value left in the `IN` of instance `j`, whose reader has halted (R185, log 19). -/
def Network.hostCollect (n : Network) (j : Nat) : Option (Word × Network) :=
  (n.cores[j]?).bind (fun s =>
    (collect s).map (fun p => (p.1, { n with cores := n.cores.set j p.2 })))

/-- Stop: the host ceases to schedule instance `i`; no state of the instance is changed (R188, R208). -/
def Network.hostStop (n : Network) (i : Nat) : Network := { n with stopped := n.stopped.set i true }

/-- A move of the host, which is one agent (R186). Observing (R208) changes nothing and is no move. -/
inductive HostMove where
  | feed (j : Nat) (v : Word)
  | drain (i : Nat)
  | collect (j : Nat)
  | stop (i : Nat)
  deriving DecidableEq, Repr

/-- A move of an agent: an instance's step, or a move of the host (R186). -/
inductive Move where
  | step (i : Nat)
  | host (m : HostMove)
  deriving DecidableEq, Repr

/-- A host move; none where the host has not the role, or there is no value to take. -/
def Network.hostAct (n : Network) (m : HostMove) : Option Network :=
  match m with
  | .feed j v => n.hostFeed j v
  | .drain i => (n.hostDrain i).map (·.2)
  | .collect j => (n.hostCollect j).map (·.2)
  | .stop i => some (n.hostStop i)

/-- Any move of any agent; none when it is not enabled. -/
def Network.act (n : Network) (m : Move) : Option Network :=
  match m with
  | .step i => n.stepCore i
  | .host h => n.hostAct h

/-! ## The run of a topology -/

/-- The Failed instances, with their error records. -/
def Network.failures (n : Network) : List (Nat × ErrorRecord) :=
  n.cores.zipIdx.filterMap (fun p => if p.1.st = .failed then some (p.2, p.1.err) else none)

/-- What the host reports of the run (R188, R189): failed, with each Failed instance and its error, as soon
as some instance is Failed; completed when every instance is Halted; else it goes on. -/
inductive RunReport where
  | going
  | completed
  | failed (failures : List (Nat × ErrorRecord))
  deriving DecidableEq, Repr

/-- The report of a topology's run. -/
def Network.report (n : Network) : RunReport :=
  if n.failures ≠ [] then .failed n.failures
  else if n.cores.all (fun s => decide (s.st = .halted)) then .completed
  else .going

/-- The run is over when every instance is Halted, or some instance is Failed (R188, R189). -/
def Network.finished (n : Network) : Bool := decide (n.report ≠ .going)

/-- The host's duty after a failure (R188: "one VM's Failed state as cause to stop all sibling VMs"): every
instance is stopped, and no state of any is changed. -/
def Network.supervise (n : Network) : Network :=
  if n.failures = [] then n else { n with stopped := List.replicate n.cores.length true }

/-- A run under a list of moves, the free interleaving of all agents (R186, U10). A move that is not enabled
passes. DESIGN CHOICE (log 20): the host does its duty before the next move; a host that stops the siblings
later is given by `act` alone. -/
def Network.run : List Move → Network → Network
  | [], n => n
  | m :: ms, n => Network.run ms ((n.supervise.act m).getD n.supervise)

/-- Every instance is Blocked and every `IN` is empty. -/
def Network.allWaiting (n : Network) : Bool :=
  n.cores.all (fun s => decide (s.st = .blocked) && s.inCh.isEmpty)

/-- A move of the host. -/
def Move.isHost : Move → Bool
  | .step _ => false
  | .host _ => true

/-- A deadlock (R187), with `pending` the moves that are still to come: every instance Blocked, every `IN`
empty, no host move pending. The engine does not detect it; no error is recorded. -/
def Network.deadlocked (n : Network) (pending : List Move) : Bool :=
  n.allWaiting && pending.all (fun m => !m.isHost)

/-- A legal wiring (R183, R184): a link and a stop flag for each instance, links to instances there are,
each channel with one writer role, and a linked instance's `outCh` empty, since the queue is held by its
reader. -/
def Network.WellWired (n : Network) : Prop :=
  n.link.length = n.cores.length ∧
    n.stopped.length = n.cores.length ∧
    (∀ i j, n.reader i = some j → j < n.cores.length) ∧
    (∀ i k j, n.reader i = some j → n.reader k = some j → i = k) ∧
    (∀ i j s, n.reader i = some j → n.cores[i]? = some s → s.outCh = [])

end Sys2Proof.Machine
end

