-- ==== Sys2Proof/WellFormed.lean ====
section
/-! DEFINITION. Well-formed instructions: those the engine can resolve without a mode fault, the ones
whose canonical words spec/30_encoding.md R74 lists. Every other check of the encoding is carried by
the types (a mode is one of three, a cell is an Int64, each opcode has its own operand count). -/

namespace Sys2Proof

/-- A write target may not be in immediate mode (R66, R67: "encodable but illegal"). -/
def Operand.isTarget (d : Operand) : Bool :=
  match d.mode with
  | .position => true
  | .immediate => false
  | .relative => true

/-- No write target in immediate mode (R67). The decoder accepts the ill-formed ones too, and the
engine raises InvalidWriteTarget on them (R88). -/
def Instr.wellFormed : Instr → Bool
  | .add _ _ d => d.isTarget
  | .multiply _ _ d => d.isTarget
  | .input d => d.isTarget
  | .output _ => true
  | .jumpIfNotZero _ _ => true
  | .jumpIfZero _ _ => true
  | .lessThan _ _ d => d.isTarget
  | .equals _ _ d => d.isTarget
  | .adjustRelativeBase _ => true
  | .halt => true

/-- R74's words of a three-operand opcode: every prefix of modes 0, 1, 2 for operands 0 and 1, and 0
or 2 for operand 2, written out as the table writes them for add, moved to the opcode `op`. -/
def canonicalF3 (op : Int) : List Int :=
  [1, 101, 201, 1001, 1101, 1201, 2001, 2101, 2201,
    20001, 20101, 20201, 21001, 21101, 21201, 22001, 22101, 22201].map (fun w => w - 1 + op)

/-- R74's table of the 99 canonical legal words, row by row. -/
def canonicalWords : List Int :=
  canonicalF3 1 ++ canonicalF3 2 ++ [3, 203] ++ [4, 104, 204]
    ++ [5, 105, 205, 1005, 1105, 1205, 2005, 2105, 2205]
    ++ [6, 106, 206, 1006, 1106, 1206, 2006, 2106, 2206]
    ++ canonicalF3 7 ++ canonicalF3 8 ++ [9, 109, 209] ++ [99]

end Sys2Proof
end

