-- ==== Sys2Proof/Safety.lean ====
section
/-! DEFINITION. What counts as a legal state and a safe run, in the terms the statements use
(spec/10_state.md R26, R27, R36; spec/40_cycle_and_operands.md R95, R96). -/

namespace Sys2Proof.Machine

/-- `err.addr` (R27): for NegativeAddress a negative integer, none for every other kind. -/
def ErrAddrAgrees (e : ErrorRecord) : Prop :=
  (e.kind = .negativeAddress → ∃ a, e.addr = some a ∧ a < 0) ∧
    (e.kind ≠ .negativeAddress → e.addr = none)

/-- The error record agrees with the run state (R27, R36): None, with empty fields, while `st` is not
Failed; a real error, recorded at this `ip` with the word there, when it is. -/
def ErrorAgrees (s : State) : Prop :=
  (s.st ≠ .failed → s.err = ErrorRecord.empty) ∧
    (s.st = .failed → s.err.kind ≠ .noError ∧ s.err.ip = s.ip ∧
      s.err.word = Memory.read s.mem s.ip ∧ ErrAddrAgrees s.err)

/-- R36, the invariant of every reachable state. That `rb`, the cells and the channel elements are Int64
is carried by the type `Word`; that finitely many cells differ from 0, by the list. -/
def Inv (s : State) : Prop :=
  s.ip ≤ maxAddr ∧ Memory.wf s.mem = true ∧ ErrorAgrees s

/-- R96: a Blocked instance stands at an input instruction whose every check passes. -/
def BlockedAtInput (s : State) : Prop :=
  s.st = .blocked →
    ∃ d nip t, decode (fetchCells s) = .instr (.input d) ∧ successor 1 s = .ok nip ∧
      resolveWrite d s = .ok t

/-- A state that may be stepped (R80: "defined when `st` is Running or Blocked"). -/
def Active (s : State) : Prop := s.st = .running ∨ s.st = .blocked

/-- The instruction is a jump that is taken in `s`, and `w` is the resolved value of its operand 1 (R120,
R121). -/
def JumpTaken (i : Instr) (s : State) (w : Word) : Prop :=
  match i with
  | .jumpIfNotZero a t => (∃ v, resolveRead a s = .ok v ∧ v.toInt ≠ 0) ∧ resolveRead t s = .ok w
  | .jumpIfZero a t => (∃ v, resolveRead a s = .ok v ∧ v.toInt = 0) ∧ resolveRead t s = .ok w
  | .add _ _ _ => False
  | .multiply _ _ _ => False
  | .input _ => False
  | .output _ => False
  | .lessThan _ _ _ => False
  | .equals _ _ _ => False
  | .adjustRelativeBase _ => False
  | .halt => False

/-- A result that is no Int64 (R10). -/
def OutsideInt64 (v : Int) : Prop := v < minInt ∨ maxInt < v

/-- The result of the instruction's own operation is no Int64: the sum of add, the product of multiply, the
new `rb` of adjust-relative-base (R166). -/
def ResultOverflows (i : Instr) (s : State) : Prop :=
  match i with
  | .add a b _ => ∃ v w, resolveRead a s = .ok v ∧ resolveRead b s = .ok w ∧
      OutsideInt64 (v.toInt + w.toInt)
  | .multiply a b _ => ∃ v w, resolveRead a s = .ok v ∧ resolveRead b s = .ok w ∧
      OutsideInt64 (v.toInt * w.toInt)
  | .adjustRelativeBase a => ∃ v, resolveRead a s = .ok v ∧ OutsideInt64 (s.rb.toInt + v.toInt)
  | .input _ => False
  | .output _ => False
  | .jumpIfNotZero _ _ => False
  | .jumpIfZero _ _ => False
  | .lessThan _ _ _ => False
  | .equals _ _ _ => False
  | .halt => False

/-- The operands whose value is used (R63). -/
def readOperands : Instr → List Operand
  | .add a b _ => [a, b]
  | .multiply a b _ => [a, b]
  | .input _ => []
  | .output a => [a]
  | .jumpIfNotZero a t => [a, t]
  | .jumpIfZero a t => [a, t]
  | .lessThan a b _ => [a, b]
  | .equals a b _ => [a, b]
  | .adjustRelativeBase a => [a]
  | .halt => []

/-- The instruction has an error to raise after its decoding (R90, orders 3 to 7): its successor address is
above MAXADDR, a read operand or its write target does not resolve, its result is no Int64, or it is a taken
jump to a negative target. -/
def ExecuteError (i : Instr) (s : State) : Prop :=
  (i ≠ .halt ∧ maxAddr < s.ip + i.length) ∨
    (∃ o ∈ readOperands i, ∃ e, resolveRead o s = .error e) ∨
    (∃ d e, i.writeTarget = some d ∧ resolveWrite d s = .error e) ∨
    ResultOverflows i s ∨
    ∃ w, JumpTaken i s w ∧ w.toInt < 0

/-- The four instructions of format F3, and the two of format F2 (R63). -/
def threeOperand : List (Operand → Operand → Operand → Instr) :=
  [Instr.add, Instr.multiply, Instr.lessThan, Instr.equals]

def twoOperand : List (Operand → Operand → Instr) := [Instr.jumpIfNotZero, Instr.jumpIfZero]

/-- R62's table as the document gives it: opcode and operand count (length less the opcode cell). -/
def opcodeTable : List (Nat × Nat) :=
  [(1, 3), (2, 3), (3, 1), (4, 1), (5, 2), (6, 2), (7, 3), (8, 3), (9, 1), (99, 0)]

/-- Tokens joined by commas (R202). -/
def joinCommas : List (List Char) → List Char
  | [] => []
  | [tok] => tok
  | tok :: toks => tok ++ ',' :: joinCommas toks

/-- The decimal value of a string of digits, most significant first (R202). -/
def decimalValue (ds : List Char) : Nat := ds.foldl (fun acc c => 10 * acc + (c.toNat - 48)) 0

/-- R202's `token ::= "-"? digit+`, and the Int64 it stands for. -/
def TokenOf (tok : List Char) (w : Word) : Prop :=
  ∃ ds : List Char, ds ≠ [] ∧ (∀ c ∈ ds, 48 ≤ c.toNat ∧ c.toNat ≤ 57) ∧
    ((tok = ds ∧ w.toInt = (decimalValue ds : Int)) ∨
      (tok = '-' :: ds ∧ w.toInt = -(decimalValue ds : Int)))

/-- States an instance can come to: created from some text and seeds (R200), then steps of its own and
appends, drains and collections of the host (R185, R208). -/
inductive Reachable : State → Prop where
  | created (text : List Char) (seeds : List Word) : Reachable (createFromText text seeds)
  | stepped {s t : State} : Reachable s → step s = .next t → Reachable t
  | fed {s : State} (v : Word) : Reachable s → Reachable (feed v s)
  | collected {s t : State} {v : Word} : Reachable s → collect s = some (v, t) → Reachable t
  | drained {s t : State} {v : Word} : Reachable s → drain s = some (v, t) → Reachable t

end Sys2Proof.Machine
end

