-- ==== Sys2Proof/Certificates/Slice0/Obligations.lean ====
section
/-! DEFINITION. The statements for the provers, one `def Obligations.<Name> : Prop` each, in the order of
OBLIGATIONS.json. Rules R<n> are those of spec/. -/

open Sys2Proof Sys2Proof.Machine

/-! ## Arithmetic and memory -/

/-- R10: `add64` and `mul64` give the exact result when it is an Int64, else raise ArithmeticOverflow. -/
def Obligations.CheckedArithmeticIsExactOrOverflows : Prop :=
  ∀ a b : Word,
    ((-9223372036854775808 ≤ a.toInt + b.toInt ∧ a.toInt + b.toInt ≤ 9223372036854775807 →
        ∃ r, add64 a b = .ok r ∧ r.toInt = a.toInt + b.toInt) ∧
      (a.toInt + b.toInt < -9223372036854775808 ∨ 9223372036854775807 < a.toInt + b.toInt →
        add64 a b = .error .arithmeticOverflow)) ∧
    ((-9223372036854775808 ≤ a.toInt * b.toInt ∧ a.toInt * b.toInt ≤ 9223372036854775807 →
        ∃ r, mul64 a b = .ok r ∧ r.toInt = a.toInt * b.toInt) ∧
      (a.toInt * b.toInt < -9223372036854775808 ∨ 9223372036854775807 < a.toInt * b.toInt →
        mul64 a b = .error .arithmeticOverflow))

/-- R43: a never-written address reads 0; a write succeeds at every address and the next reads of it give
the written value; every other cell is as before (R42). -/
def Obligations.MemoryReadAfterWrite : Prop :=
  (∀ b, Memory.read [] b = 0) ∧
    ∀ (m : Memory) (a b : Nat) (v : Word),
      Memory.read (Memory.write m a v) b = if b = a then v else Memory.read m b

/-- The canonical form of memory (the model's, log 1): memories that read alike at every address are the
same list. -/
def Obligations.MemoriesThatReadAlikeAreEqual : Prop :=
  ∀ m n : Memory, Memory.wf m = true → Memory.wf n = true →
    (∀ a, Memory.read m a = Memory.read n a) → m = n

/-! ## Encoding -/

/-- Decoding an encoded instruction gives it back, whatever cells follow it, for every operand mode and
every operand cell (R60, R61, R64, R78). -/
def Obligations.DecodeOfEncodeIsTheInstruction : Prop :=
  ∀ (i : Instr) (rest : List Word), decode (encode i ++ rest) = .instr i

/-- Encoding a decoded instruction gives back its operand cells, and its word with the excess digits
dropped: "the instruction decodes as if they were 0" (R73). -/
def Obligations.EncodeOfDecodeDropsOnlyExcessDigits : Prop :=
  ∀ (cells : List Word) (i : Instr), decode cells = .instr i → i.length ≤ cells.length →
    (encode i).tail = (cells.take i.length).tail ∧
      (cellAt (encode i) 0).toInt = (cellAt cells 0).toInt % 10 ^ (i.operands.length + 2)

/-- R75: for every word exactly one verdict. UnknownOpcode for a negative word (R71) or an opcode outside
the table of R62 (R70); InvalidParameterMode for a legal opcode with a digit above 2 in the mode position
of one of its own operands (R72); otherwise an instruction with that opcode, operand count and modes, each
operand with its own cell (R60). -/
def Obligations.DecodeGivesExactlyOneVerdict : Prop :=
  ∀ cells : List Word,
    let w := (cellAt cells 0).toInt
    (decode cells = .unknownOpcode ↔ w < 0 ∨ ∀ n, (w.toNat % 100, n) ∉ opcodeTable) ∧
    (decode cells = .invalidParameterMode ↔
      0 ≤ w ∧ ∃ n k, (w.toNat % 100, n) ∈ opcodeTable ∧ k < n ∧ 2 < digit (k + 2) w.toNat) ∧
    ((∃ i, decode cells = .instr i) ↔
      0 ≤ w ∧ ∃ n, (w.toNat % 100, n) ∈ opcodeTable ∧ ∀ k, k < n → digit (k + 2) w.toNat ≤ 2) ∧
    ∀ i, decode cells = .instr i →
      opcodeCode i.opcode = w.toNat % 100 ∧ (w.toNat % 100, i.operands.length) ∈ opcodeTable ∧
      ∀ k o, i.operands[k]? = some o →
        modeDigit o.mode = digit (k + 2) w.toNat ∧ o.cell = cellAt cells (k + 1)

/-- Some words of the spec's tables and examples decode to what they stand for (R62, R66, R77; rows of
spec/96_test_vectors_derived.md, section 1). -/
def Obligations.WordsOfTheSpecDecode : Prop :=
  decode [1002, 4, 3, 4, 33] = .instr (.multiply ⟨.position, 4⟩ ⟨.immediate, 3⟩ ⟨.position, 4⟩) ∧
  decode [21107, 1, 2, 3] = .instr (.lessThan ⟨.immediate, 1⟩ ⟨.immediate, 2⟩ ⟨.relative, 3⟩) ∧
  decode [204, -1] = .instr (.output ⟨.relative, -1⟩) ∧
  decode [109, 1] = .instr (.adjustRelativeBase ⟨.immediate, 1⟩) ∧
  decode [1206, 7, 8] = .instr (.jumpIfZero ⟨.relative, 7⟩ ⟨.immediate, 8⟩) ∧
  decode [103, 5] = .instr (.input ⟨.immediate, 5⟩) ∧
  decode [10099] = .instr .halt ∧
  decode [5000] = .unknownOpcode ∧ decode [-1] = .unknownOpcode ∧
  decode [904, 0] = .invalidParameterMode ∧ decode [10301, 0, 0, 0] = .invalidParameterMode

/-- The instruction words of the well-formed instructions are R74's 99 canonical words: every one of
theirs is in the table, and every word of the table is one of theirs. -/
def Obligations.WellFormedWordsAreTheCanonicalWords : Prop :=
  canonicalWords.length = 99 ∧
    (∀ i : Instr, i.wellFormed = true ↔ (cellAt (encode i) 0).toInt ∈ canonicalWords) ∧
    ∀ w ∈ canonicalWords, ∃ i : Instr, i.wellFormed = true ∧ (cellAt (encode i) 0).toInt = w

/-! ## Operand resolution -/

/-- R87, all three modes of a read operand with their faults, in relative mode the overflow before the
sign. -/
def Obligations.ReadOperandsResolveByMode : Prop :=
  ∀ (c : Word) (s : State),
    (c.toInt < 0 → resolveRead ⟨.position, c⟩ s = .error (.negativeAddress c.toInt)) ∧
    (0 ≤ c.toInt → resolveRead ⟨.position, c⟩ s = .ok (Memory.read s.mem c.toInt.toNat)) ∧
    resolveRead ⟨.immediate, c⟩ s = .ok c ∧
    (s.rb.toInt + c.toInt < minInt ∨ maxInt < s.rb.toInt + c.toInt →
      resolveRead ⟨.relative, c⟩ s = .error .arithmeticOverflow) ∧
    (minInt ≤ s.rb.toInt + c.toInt ∧ s.rb.toInt + c.toInt < 0 →
      resolveRead ⟨.relative, c⟩ s = .error (.negativeAddress (s.rb.toInt + c.toInt))) ∧
    (0 ≤ s.rb.toInt + c.toInt ∧ s.rb.toInt + c.toInt ≤ maxInt →
      resolveRead ⟨.relative, c⟩ s = .ok (Memory.read s.mem (s.rb.toInt + c.toInt).toNat))

/-- R88, all three modes of a write target with their faults; the result is an address of the address
space. -/
def Obligations.WriteTargetsResolveByMode : Prop :=
  ∀ (c : Word) (s : State),
    (c.toInt < 0 → resolveWrite ⟨.position, c⟩ s = .error (.negativeAddress c.toInt)) ∧
    (0 ≤ c.toInt → resolveWrite ⟨.position, c⟩ s = .ok c.toInt.toNat) ∧
    resolveWrite ⟨.immediate, c⟩ s = .error .invalidWriteTarget ∧
    (s.rb.toInt + c.toInt < minInt ∨ maxInt < s.rb.toInt + c.toInt →
      resolveWrite ⟨.relative, c⟩ s = .error .arithmeticOverflow) ∧
    (minInt ≤ s.rb.toInt + c.toInt ∧ s.rb.toInt + c.toInt < 0 →
      resolveWrite ⟨.relative, c⟩ s = .error (.negativeAddress (s.rb.toInt + c.toInt))) ∧
    (0 ≤ s.rb.toInt + c.toInt ∧ s.rb.toInt + c.toInt ≤ maxInt →
      resolveWrite ⟨.relative, c⟩ s = .ok (s.rb.toInt + c.toInt).toNat) ∧
    ∀ m t, resolveWrite ⟨m, c⟩ s = .ok t → t ≤ maxAddr

/-! ## The step -/

/-- R80: when the cells at `ip` decode to an instruction, the step of a Running or Blocked instance is
that instruction's `exec`, with nothing around it. -/
def Obligations.StepRunsTheDecodedInstruction : Prop :=
  ∀ (s : State) (i : Instr), Active s → decode (fetchCells s) = .instr i → step s = exec i s

/-- An instruction's encoding, stored from `ip` on, is what the step runs (R60, R81, R86). -/
def Obligations.StepRunsTheEncodingStoredAtIp : Prop :=
  ∀ (s : State) (i : Instr), Active s →
    (∀ k, k < i.length → Memory.read s.mem (s.ip + k) = cellAt (encode i) k) → step s = exec i s

/-- R162: a negative word, or one whose opcode is one of the ninety values 0, 10 to 98, is
UnknownOpcode, whatever else is wrong with it; `err.ip` and `err.word` are recorded. -/
def Obligations.UnknownOpcodeIsRaised : Prop :=
  ∀ s : State, Active s →
    let w := (Memory.read s.mem s.ip).toInt
    (w < 0 ∨ w.toNat % 100 = 0 ∨ (10 ≤ w.toNat % 100 ∧ w.toNat % 100 ≤ 98)) →
      step s = .next { s with
        st := .failed, err := ⟨.unknownOpcode, s.ip, Memory.read s.mem s.ip, none⟩ }

/-- R163: a legal opcode of `n` operands with a digit 3 to 9 of weight 10^(k+2), `k < n`, is
InvalidParameterMode, before any operand is resolved; `err.ip` and `err.word` are recorded. Digits with no
operand never raise it, so halt does not. -/
def Obligations.InvalidParameterModeIsRaised : Prop :=
  ∀ (s : State) (n : Nat), Active s →
    let w := (Memory.read s.mem s.ip).toInt
    0 ≤ w → (w.toNat % 100, n) ∈ opcodeTable →
      (∀ k, k < n → 3 ≤ digit (k + 2) w.toNat →
        step s = .next { s with
          st := .failed, err := ⟨.invalidParameterMode, s.ip, Memory.read s.mem s.ip, none⟩ }) ∧
      ((∀ k, k < n → digit (k + 2) w.toNat ≤ 2) → ∀ t, step s = .next t → t.st = .failed →
        t.err.kind ≠ .invalidParameterMode)

/-- R161: `raise` makes the instance Failed and writes `err` (kind, code of R160, `ip`, word, and the
address of NegativeAddress); `ip`, `rb`, memory, `IN` and `OUT` keep their values, and no instruction runs
in response. -/
def Obligations.RaiseWritesOnlyStatusAndError : Prop :=
  ∀ (e : Trap) (s : State),
    (raise e s).st = .failed ∧ (raise e s).err.ip = s.ip ∧
    (raise e s).err.word = Memory.read s.mem s.ip ∧
    (raise e s).ip = s.ip ∧ (raise e s).rb = s.rb ∧ (raise e s).mem = s.mem ∧
    (raise e s).inCh = s.inCh ∧ (raise e s).outCh = s.outCh ∧
    step (raise e s) = .fault .noStepFailed ∧
    (e = .unknownOpcode → (raise e s).err.kind = .unknownOpcode ∧
      errCode (raise e s).err.kind = 1 ∧ (raise e s).err.addr = none) ∧
    (e = .invalidParameterMode → (raise e s).err.kind = .invalidParameterMode ∧
      errCode (raise e s).err.kind = 2 ∧ (raise e s).err.addr = none) ∧
    (e = .invalidWriteTarget → (raise e s).err.kind = .invalidWriteTarget ∧
      errCode (raise e s).err.kind = 3 ∧ (raise e s).err.addr = none) ∧
    (∀ a, e = .negativeAddress a → (raise e s).err.kind = .negativeAddress ∧
      errCode (raise e s).err.kind = 4 ∧ (raise e s).err.addr = some a) ∧
    (e = .malformedProgramText → (raise e s).err.kind = .malformedProgramText ∧
      errCode (raise e s).err.kind = 5 ∧ (raise e s).err.addr = none) ∧
    (e = .arithmeticOverflow → (raise e s).err.kind = .arithmeticOverflow ∧
      errCode (raise e s).err.kind = 6 ∧ (raise e s).err.addr = none)

/-- R95: a Halted or Failed instance has no step, and (R80) every other instance has one. -/
def Obligations.StepExistsExactlyWhenNotTerminal : Prop :=
  ∀ s : State,
    (s.st = .halted → step s = .fault .noStepHalted) ∧
    (s.st = .failed → step s = .fault .noStepFailed) ∧
    ((∃ t, step s = .next t) ↔ s.st ≠ .halted ∧ s.st ≠ .failed)

/-- No meaning stops: every instruction, in every state, answers a next state (R11, R80, R91: an error is
the transition to Failed, a hold the transition to Blocked). -/
def Obligations.EveryInstructionAnswersANextState : Prop :=
  ∀ (i : Instr) (s : State), ∃ t, exec i s = .next t

/-- R91: "Faults are precise and total". A step that ends in Failed changes `st` and `err` only, and the
record names the faulting instruction (R169). -/
def Obligations.FaultsArePrecise : Prop :=
  ∀ s t : State, step s = .next t → t.st = .failed →
    t.ip = s.ip ∧ t.rb = s.rb ∧ t.mem = s.mem ∧ t.inCh = s.inCh ∧ t.outCh = s.outCh ∧
    t.err.kind ≠ .noError ∧ t.err.ip = s.ip ∧ t.err.word = Memory.read s.mem s.ip

/-- R90, R162 to R166: every error a step records has the cause the spec gives its kind. NegativeAddress
comes from a position or relative operand, or a taken jump's target, that is the recorded negative address;
ArithmeticOverflow from the successor address, a relative sum, or the result of add, multiply or
adjust-relative-base. -/
def Obligations.EveryErrorHasItsCause : Prop :=
  ∀ s t : State, step s = .next t → t.st = .failed →
    let w := (Memory.read s.mem s.ip).toInt
    match t.err.kind with
    | .noError => False
    | .unknownOpcode => w < 0 ∨ ∀ n, (w.toNat % 100, n) ∉ opcodeTable
    | .invalidParameterMode =>
      ∃ n k, (w.toNat % 100, n) ∈ opcodeTable ∧ k < n ∧ 2 < digit (k + 2) w.toNat
    | .invalidWriteTarget =>
      ∃ i d, decode (fetchCells s) = .instr i ∧ i.writeTarget = some d ∧ d.mode = .immediate
    | .negativeAddress =>
      ∃ i a, decode (fetchCells s) = .instr i ∧ t.err.addr = some a ∧ a < 0 ∧
        ((∃ o ∈ i.operands, (o.mode = .position ∧ o.cell.toInt = a) ∨
            (o.mode = .relative ∧ s.rb.toInt + o.cell.toInt = a)) ∨
          ∃ v, JumpTaken i s v ∧ v.toInt = a)
    | .malformedProgramText => False
    | .arithmeticOverflow =>
      ∃ i, decode (fetchCells s) = .instr i ∧
        ((i ≠ .halt ∧ maxAddr < s.ip + i.length) ∨
          (∃ o ∈ i.operands, o.mode = .relative ∧ OutsideInt64 (s.rb.toInt + o.cell.toInt)) ∨
          ResultOverflows i s)

/-- R26, the transitions exactly: to Halted on decoding halt and only then; to Blocked when a fault-free
input finds its channel empty and only then (C4); to Failed on a decode or execute error and only then; to
Running when another instruction completes and only then; none out of Halted or Failed. A Blocked instance,
which stands at an input that passed its checks, goes to Blocked or Running only. -/
def Obligations.RunStateTransitionsAreExactly : Prop :=
  ∀ s t : State, step s = .next t →
    Active s ∧
    (t.st = .halted ↔ decode (fetchCells s) = .instr .halt) ∧
    (t.st = .blocked ↔ ∃ d p, decode (fetchCells s) = .instr (.input d) ∧ s.ip + 2 ≤ maxAddr ∧
      resolveWrite d s = .ok p ∧ s.inCh = []) ∧
    (t.st = .failed ↔ decode (fetchCells s) = .unknownOpcode ∨
      decode (fetchCells s) = .invalidParameterMode ∨
      ∃ i, decode (fetchCells s) = .instr i ∧ ExecuteError i s) ∧
    (t.st = .running ↔ ∃ i, decode (fetchCells s) = .instr i ∧ i ≠ .halt ∧ ¬ ExecuteError i s ∧
      ¬ ((∃ d, i = .input d) ∧ s.inCh = [])) ∧
    (s.st = .blocked → BlockedAtInput s →
      (t.st = .blocked ∧ s.inCh = []) ∨ (t.st = .running ∧ s.inCh ≠ []))

/-- R93: "Only adjust-relative-base writes `rb`", and it adds its operand, read through the old `rb`. -/
def Obligations.OnlyAdjustRelativeBaseWritesRb : Prop :=
  ∀ s t : State, step s = .next t → t.rb ≠ s.rb →
    ∃ a v, decode (fetchCells s) = .instr (.adjustRelativeBase a) ∧ resolveRead a s = .ok v ∧
      t.rb.toInt = s.rb.toInt + v.toInt

/-- R56, last column: a step changes at most one cell, the one the write target of an add, multiply,
input, less-than or equals resolves to in the state before. -/
def Obligations.MemoryChangesOnlyAtTheWriteTarget : Prop :=
  ∀ s t : State, step s = .next t → ∀ a, Memory.read t.mem a ≠ Memory.read s.mem a →
    ∃ i d, decode (fetchCells s) = .instr i ∧ i.writeTarget = some d ∧ resolveWrite d s = .ok a

/-- R94, R31, R32: a step does at most one channel operation. `OUT` changes only by an output appending
its value at the tail; `IN` changes only by an input taking its head. -/
def Obligations.ChannelsChangeOnlyByInputAndOutput : Prop :=
  ∀ s t : State, step s = .next t →
    (t.outCh = s.outCh ∨ ∃ a v, decode (fetchCells s) = .instr (.output a) ∧
      resolveRead a s = .ok v ∧ t.outCh = s.outCh ++ [v] ∧ t.inCh = s.inCh) ∧
    (t.inCh = s.inCh ∨ ∃ d x, decode (fetchCells s) = .instr (.input d) ∧
      s.inCh = x :: t.inCh ∧ t.outCh = s.outCh)

/-- R92: a completed instruction writes `ip`, a taken jump its target, every other the successor
`ip + length`; a halt, a hold and a fault do not write it. -/
def Obligations.IpGoesToTargetOrSuccessor : Prop :=
  ∀ s t : State, step s = .next t →
    (t.st ≠ .running → t.ip = s.ip) ∧
    (t.st = .running → ∃ i, decode (fetchCells s) = .instr i ∧
      ((∃ w, JumpTaken i s w ∧ (t.ip : Int) = w.toInt) ∨
        ((∀ w, ¬ JumpTaken i s w) ∧ t.ip = s.ip + i.length)))

/-! ## Invariants -/

/-- Every step keeps the invariant of R36: `ip` in the address space, memory canonical and inside the
address space, the error record None exactly while the instance is not Failed. -/
def Obligations.EveryStepKeepsTheInvariant : Prop :=
  ∀ s t : State, Inv s → step s = .next t → Inv t

/-- The state after reset meets it. -/
def Obligations.ResetMeetsTheInvariant : Prop := Inv State.reset

/-- R36: it holds in every reachable state, from any program text, under any moves of the host. -/
def Obligations.ReachableStatesMeetTheInvariant : Prop := ∀ s : State, Reachable s → Inv s

/-- R96: in every reachable state a Blocked instance stands at an input instruction that passes every
check. -/
def Obligations.ReachableBlockedStatesStandAtAnInput : Prop :=
  ∀ s : State, Reachable s → BlockedAtInput s

/-- R96, holding and waking: a Blocked instance with an empty `IN` stays exactly as it is; with a value
it decodes the same input, takes the oldest value, writes it and runs on. -/
def Obligations.BlockedInstanceHoldsUntilAValueArrives : Prop :=
  ∀ s : State, s.st = .blocked → BlockedAtInput s →
    (s.inCh = [] → step s = .next s) ∧
    ∀ x xs, s.inCh = x :: xs → ∃ d p, decode (fetchCells s) = .instr (.input d) ∧
      resolveWrite d s = .ok p ∧
      step s = .next { s with
        mem := Memory.write s.mem p x, inCh := xs, ip := s.ip + 2, st := .running }

/-! ## The instructions: where each completes, and with what state -/

/-- ADD (R100): the exact signed sum, or ArithmeticOverflow. -/
def Obligations.AddStoresTheExactSum : Prop :=
  ∀ (a b d : Operand) (s : State) (v w : Word) (p : Nat),
    s.ip + 4 ≤ maxAddr → resolveRead a s = .ok v → resolveRead b s = .ok w →
    resolveWrite d s = .ok p →
    (minInt ≤ v.toInt + w.toInt ∧ v.toInt + w.toInt ≤ maxInt →
      ∃ r : Word, r.toInt = v.toInt + w.toInt ∧ exec (.add a b d) s = .next { s with
        mem := Memory.write s.mem p r, ip := s.ip + 4, st := .running }) ∧
    (v.toInt + w.toInt < minInt ∨ maxInt < v.toInt + w.toInt →
      exec (.add a b d) s = .next (raise .arithmeticOverflow s))

/-- MUL (R101): the exact signed product, or ArithmeticOverflow. -/
def Obligations.MultiplyStoresTheExactProduct : Prop :=
  ∀ (a b d : Operand) (s : State) (v w : Word) (p : Nat),
    s.ip + 4 ≤ maxAddr → resolveRead a s = .ok v → resolveRead b s = .ok w →
    resolveWrite d s = .ok p →
    (minInt ≤ v.toInt * w.toInt ∧ v.toInt * w.toInt ≤ maxInt →
      ∃ r : Word, r.toInt = v.toInt * w.toInt ∧ exec (.multiply a b d) s = .next { s with
        mem := Memory.write s.mem p r, ip := s.ip + 4, st := .running }) ∧
    (v.toInt * w.toInt < minInt ∨ maxInt < v.toInt * w.toInt →
      exec (.multiply a b d) s = .next (raise .arithmeticOverflow s))

/-- LT (R130): strict, of signed integers. -/
def Obligations.LessThanStoresOneOrZero : Prop :=
  ∀ (a b d : Operand) (s : State) (v w : Word) (p : Nat),
    s.ip + 4 ≤ maxAddr → resolveRead a s = .ok v → resolveRead b s = .ok w →
    resolveWrite d s = .ok p →
    exec (.lessThan a b d) s = .next { s with
      mem := Memory.write s.mem p (if v.toInt < w.toInt then 1 else 0)
      ip := s.ip + 4, st := .running }

/-- EQ (R131): of whole Int64 values. -/
def Obligations.EqualsStoresOneOrZero : Prop :=
  ∀ (a b d : Operand) (s : State) (v w : Word) (p : Nat),
    s.ip + 4 ≤ maxAddr → resolveRead a s = .ok v → resolveRead b s = .ok w →
    resolveWrite d s = .ok p →
    exec (.equals a b d) s = .next { s with
      mem := Memory.write s.mem p (if v = w then 1 else 0)
      ip := s.ip + 4, st := .running }

/-- IN (R110): the oldest value is taken and written; on an empty channel the instance holds and nothing
else changes. -/
def Obligations.InputTakesTheOldestValueOrHolds : Prop :=
  ∀ (d : Operand) (s : State) (p : Nat),
    s.ip + 2 ≤ maxAddr → resolveWrite d s = .ok p →
    (∀ x xs, s.inCh = x :: xs → exec (.input d) s = .next { s with
      mem := Memory.write s.mem p x, inCh := xs, ip := s.ip + 2, st := .running }) ∧
    (s.inCh = [] → exec (.input d) s = .next { s with st := .blocked })

/-- OUT (R111): the value is appended at the tail; output never waits. -/
def Obligations.OutputAppendsTheValue : Prop :=
  ∀ (a : Operand) (s : State) (v : Word),
    s.ip + 2 ≤ maxAddr → resolveRead a s = .ok v →
    exec (.output a) s = .next { s with
      outCh := s.outCh ++ [v], ip := s.ip + 2, st := .running }

/-- JNZ (R120, R122): taken on any value but 0; a negative target raises only when taken. -/
def Obligations.JumpIfNotZeroGoesToItsTarget : Prop :=
  ∀ (a t : Operand) (s : State) (v w : Word),
    s.ip + 3 ≤ maxAddr → resolveRead a s = .ok v → resolveRead t s = .ok w →
    (v ≠ 0 → 0 ≤ w.toInt →
      exec (.jumpIfNotZero a t) s = .next { s with ip := w.toInt.toNat, st := .running }) ∧
    (v ≠ 0 → w.toInt < 0 →
      exec (.jumpIfNotZero a t) s = .next (raise (.negativeAddress w.toInt) s)) ∧
    (v = 0 → exec (.jumpIfNotZero a t) s = .next { s with ip := s.ip + 3, st := .running })

/-- JZ (R121, R122): taken on 0; a negative target raises only when taken. -/
def Obligations.JumpIfZeroGoesToItsTarget : Prop :=
  ∀ (a t : Operand) (s : State) (v w : Word),
    s.ip + 3 ≤ maxAddr → resolveRead a s = .ok v → resolveRead t s = .ok w →
    (v = 0 → 0 ≤ w.toInt →
      exec (.jumpIfZero a t) s = .next { s with ip := w.toInt.toNat, st := .running }) ∧
    (v = 0 → w.toInt < 0 →
      exec (.jumpIfZero a t) s = .next (raise (.negativeAddress w.toInt) s)) ∧
    (v ≠ 0 → exec (.jumpIfZero a t) s = .next { s with ip := s.ip + 3, st := .running })

/-- ARB (R140): the operand, read through the old `rb`, is added to `rb`, or ArithmeticOverflow. -/
def Obligations.AdjustRelativeBaseAddsTheOperand : Prop :=
  ∀ (a : Operand) (s : State) (v : Word),
    s.ip + 2 ≤ maxAddr → resolveRead a s = .ok v →
    (minInt ≤ s.rb.toInt + v.toInt ∧ s.rb.toInt + v.toInt ≤ maxInt →
      ∃ r : Word, r.toInt = s.rb.toInt + v.toInt ∧ exec (.adjustRelativeBase a) s = .next { s with
        rb := r, ip := s.ip + 2, st := .running }) ∧
    (s.rb.toInt + v.toInt < minInt ∨ maxInt < s.rb.toInt + v.toInt →
      exec (.adjustRelativeBase a) s = .next (raise .arithmeticOverflow s))

/-- HLT (R150): Halted and nothing else, at every address. -/
def Obligations.HaltOnlyHalts : Prop :=
  ∀ s : State, exec .halt s = .next { s with st := .halted }

/-! ## The instructions: where each raises -/

/-- R85: a successor address above MAXADDR raises ArithmeticOverflow for every instruction but halt, a
jump that would be taken included, before any operand is looked at. -/
def Obligations.SuccessorAboveMaxaddrRaises : Prop :=
  ∀ (i : Instr) (s : State), i ≠ .halt → maxAddr < s.ip + i.length →
    exec i s = .next (raise .arithmeticOverflow s)

/-- R89, R168: the operands are resolved in ascending index, all of them, before the operation; the first
that faults is the error raised, also when the operation would not use its value or would fault. -/
def Obligations.FirstOperandFaultIsRaised : Prop :=
  ∀ (s : State) (e : Trap),
    (∀ mk ∈ threeOperand, ∀ (a b d : Operand) (v w : Word), s.ip + 4 ≤ maxAddr →
      (resolveRead a s = .error e → exec (mk a b d) s = .next (raise e s)) ∧
      (resolveRead a s = .ok v → resolveRead b s = .error e →
        exec (mk a b d) s = .next (raise e s)) ∧
      (resolveRead a s = .ok v → resolveRead b s = .ok w → resolveWrite d s = .error e →
        exec (mk a b d) s = .next (raise e s))) ∧
    (∀ mk ∈ twoOperand, ∀ (a t : Operand) (v : Word), s.ip + 3 ≤ maxAddr →
      (resolveRead a s = .error e → exec (mk a t) s = .next (raise e s)) ∧
      (resolveRead a s = .ok v → resolveRead t s = .error e →
        exec (mk a t) s = .next (raise e s))) ∧
    ∀ a : Operand, s.ip + 2 ≤ maxAddr →
      (resolveRead a s = .error e → exec (.output a) s = .next (raise e s)) ∧
      (resolveRead a s = .error e → exec (.adjustRelativeBase a) s = .next (raise e s)) ∧
      (resolveWrite a s = .error e → exec (.input a) s = .next (raise e s))

/-- R164: an immediate write target raises InvalidWriteTarget when its turn comes, for input whether or
not its channel is empty; an instruction with another write target, or with none, never raises it. -/
def Obligations.ImmediateWriteTargetRaises : Prop :=
  (∀ mk ∈ threeOperand, ∀ (a b : Operand) (c v w : Word) (s : State), s.ip + 4 ≤ maxAddr →
    resolveRead a s = .ok v → resolveRead b s = .ok w →
    exec (mk a b ⟨.immediate, c⟩) s = .next { s with
      st := .failed, err := ⟨.invalidWriteTarget, s.ip, Memory.read s.mem s.ip, none⟩ }) ∧
  (∀ (c : Word) (s : State), s.ip + 2 ≤ maxAddr →
    exec (.input ⟨.immediate, c⟩) s = .next { s with
      st := .failed, err := ⟨.invalidWriteTarget, s.ip, Memory.read s.mem s.ip, none⟩ }) ∧
  ∀ (i : Instr) (s t : State), (∀ d, i.writeTarget = some d → d.mode ≠ .immediate) →
    exec i s = .next t → t.st = .failed → t.err.kind ≠ .invalidWriteTarget

/-! ## Frames -/

/-- ADD, MUL, LT, EQ (R100, R101, R130, R131): `rb`, `IN`, `OUT` and (unless the step raised) `err` are
unchanged, and every cell but the one the write target resolves to reads as before; all cells do when it
resolves to none. -/
def Obligations.ThreeOperandInstructionsFrame : Prop :=
  ∀ mk ∈ threeOperand, ∀ (a b d : Operand) (s t : State), exec (mk a b d) s = .next t →
    t.rb = s.rb ∧ t.inCh = s.inCh ∧ t.outCh = s.outCh ∧ (t.st ≠ .failed → t.err = s.err) ∧
    (∀ p, resolveWrite d s = .ok p → ∀ q, q ≠ p → Memory.read t.mem q = Memory.read s.mem q) ∧
    ((∀ p, resolveWrite d s ≠ .ok p) → ∀ q, Memory.read t.mem q = Memory.read s.mem q)

/-- IN (R110): `rb`, `OUT` and (unless it raised) `err` are unchanged, `IN` loses at most its head, and
every cell but the write target's reads as before; all cells do when the target resolves to none or `IN`
is empty. -/
def Obligations.InputFrame : Prop :=
  ∀ (d : Operand) (s t : State), exec (.input d) s = .next t →
    t.rb = s.rb ∧ t.outCh = s.outCh ∧ (t.st ≠ .failed → t.err = s.err) ∧
    (t.inCh = s.inCh ∨ t.inCh = s.inCh.tail) ∧
    (∀ p, resolveWrite d s = .ok p → ∀ q, q ≠ p → Memory.read t.mem q = Memory.read s.mem q) ∧
    (((∀ p, resolveWrite d s ≠ .ok p) ∨ s.inCh = []) →
      ∀ q, Memory.read t.mem q = Memory.read s.mem q)

/-- OUT, JNZ, JZ, ARB, HLT (R111, R120, R121, R140, R150) store nothing: every cell reads as before, `IN`
is unchanged, `OUT` by all but output, `rb` by all but adjust-relative-base, and `err` unless the step
raised. -/
def Obligations.NonStoringInstructionsFrame : Prop :=
  ∀ (i : Instr) (s t : State), i.writeTarget = none → exec i s = .next t →
    (∀ q, Memory.read t.mem q = Memory.read s.mem q) ∧ t.inCh = s.inCh ∧
    (t.st ≠ .failed → t.err = s.err) ∧
    ((∀ a, i ≠ .output a) → t.outCh = s.outCh) ∧
    ((∀ a, i ≠ .adjustRelativeBase a) → t.rb = s.rb)

/-- R54: "a write by one instruction is seen by the fetch of the next": a value stored where the next
instruction word is fetched is that word. -/
def Obligations.TheNextFetchSeesTheWrite : Prop :=
  (∀ mk ∈ threeOperand, ∀ (a b d : Operand) (s t : State) (r : Word), exec (mk a b d) s = .next t →
    t.st = .running → t.mem = Memory.write s.mem (s.ip + 4) r → cellAt (fetchCells t) 0 = r) ∧
  ∀ (d : Operand) (s : State) (x : Word) (xs : List Word), s.inCh = x :: xs →
    s.ip + 2 ≤ maxAddr → resolveWrite d s = .ok (s.ip + 2) →
    ∃ t, exec (.input d) s = .next t ∧ cellAt (fetchCells t) 0 = x

/-! ## Program text and reset -/

/-- R203: a created instance holds its program from address 0 and 0 elsewhere; `ip` and `rb` are 0, the
run state Running, `err` None, `IN` the seeds in order, `OUT` empty (R37). -/
def Obligations.CreatedInstanceHoldsTheProgram : Prop :=
  ∀ program seeds : List Word, program.length ≤ maxAddr + 1 →
    (∀ a, Memory.read (create program seeds).mem a = program.getD a 0) ∧
    (create program seeds).ip = 0 ∧ (create program seeds).rb = 0 ∧
    (create program seeds).st = .running ∧
    (create program seeds).err = ⟨.noError, 0, 0, none⟩ ∧
    (create program seeds).inCh = seeds ∧ (create program seeds).outCh = []

/-- R202's grammar: a text is a program exactly when, after the trim, it is comma-separated tokens, each
an optional minus sign and at least one digit, of value an Int64. Which characters the trim removes is
the model's choice (log 7). -/
def Obligations.TextGrammarIsExactlyTheSpecs : Prop :=
  ∀ (text : List Char) (program : List Word),
    parseText text = some program ↔
      ∃ (lead body trail : List Char) (toks : List (List Char)),
        text = lead ++ body ++ trail ∧ (∀ c ∈ lead, isBlank c = true) ∧
        (∀ c ∈ trail, isBlank c = true) ∧ body = joinCommas toks ∧ toks ≠ [] ∧
        List.Forall₂ TokenOf toks program

/-- R77, R202: the text written for a program of at least one cell parses to that program. -/
def Obligations.WrittenTextParsesBack : Prop :=
  ∀ program : List Word, program ≠ [] → parseText (programText program) = some program

/-- R209: a value written as an output line reads back as that value on an input line. -/
def Obligations.OutputLineReadsBack : Prop := ∀ v : Word, parseLine (renderLine v) = some v

/-- R204: a malformed text gives an instance Failed with MalformedProgramText, `ip` 0, `rb` 0, memory all
0, that never takes a step; with the malformed and accepted texts of R204's table. -/
def Obligations.MalformedTextGivesAFailedInstance : Prop :=
  (∀ text seeds, parseText text = none →
    (createFromText text seeds).st = .failed ∧
    (createFromText text seeds).err = ⟨.malformedProgramText, 0, 0, none⟩ ∧
    errCode (createFromText text seeds).err.kind = 5 ∧
    (createFromText text seeds).ip = 0 ∧ (createFromText text seeds).rb = 0 ∧
    (∀ a, Memory.read (createFromText text seeds).mem a = 0) ∧
    step (createFromText text seeds) = .fault .noStepFailed) ∧
  (∀ text ∈ [['1', ',', 'x', ',', '3'], ['1', ',', ',', '3'], ['1', ',', '2', ','], [',', '1'], [],
      [' ', '\n'], ['1', ',', ' ', '2'], ['1', ' ', ',', '2'], ['+', '5'], ['1', '.', '0'],
      ['1', 'e', '3'], ['0', 'x', '1', '0'], ['-'], ['-', '-', '1'],
      ['9', '2', '2', '3', '3', '7', '2', '0', '3', '6', '8', '5', '4', '7', '7', '5', '8', '0', '8'],
      ['-', '9', '2', '2', '3', '3', '7', '2', '0', '3', '6', '8', '5', '4', '7', '7', '5', '8', '0', '9']],
    parseText text = none) ∧
  parseText ['9', '2', '2', '3', '3', '7', '2', '0', '3', '6', '8', '5', '4', '7', '7', '5', '8', '0', '7']
    = some [9223372036854775807] ∧
  parseText ['-', '9', '2', '2', '3', '3', '7', '2', '0', '3', '6', '8', '5', '4', '7', '7', '5', '8', '0', '8']
    = some [-9223372036854775808] ∧
  parseText [' ', ' ', '1', ',', '2', ',', '3', '\n'] = some [1, 2, 3]

/-! ## The host and several instances -/

/-- R97, R208: an append by the host changes nothing an instance does but what its input may take: a step
that is no hold commutes with it. -/
def Obligations.StepCommutesWithFeed : Prop :=
  ∀ (s t : State) (v : Word), step s = .next t → t.st ≠ .blocked →
    step (feed v s) = .next (feed v t)

/-- R184: when an instance whose `OUT` is another's `IN` outputs a value, that value is at the tail of
the other's `IN` after the step, and nothing else of the other changes. -/
def Obligations.LinkedOutputArrivesAtTheReader : Prop :=
  ∀ (n : Network) (i j : Nat) (s r : State) (a : Operand) (v : Word),
    n.WellWired → i ≠ j → n.reader i = some j → n.cores[i]? = some s → n.cores[j]? = some r →
    mayStep s = true → n.isStopped i = false → decode (fetchCells s) = .instr (.output a) → s.ip + 2 ≤ maxAddr →
    resolveRead a s = .ok v →
    ∃ n', n.stepCore i = some n' ∧ n'.cores[j]? = some { r with inCh := r.inCh ++ [v] } ∧
      n'.cores[i]? = some { s with ip := s.ip + 2, st := .running }

/-- R46: a step of one instance leaves every other as it was, but for values appended to the `IN` of the
one its `OUT` is wired to. -/
def Obligations.AStepReachesOthersOnlyThroughItsChannel : Prop :=
  ∀ (n n' : Network) (i k : Nat) (s : State),
    n.stepCore i = some n' → k ≠ i → n.cores[k]? = some s →
    n'.link = n.link ∧ n'.stopped = n.stopped ∧
    ∃ vs, n'.cores[k]? = some { s with inCh := s.inCh ++ vs } ∧
      (n.reader i ≠ some k → vs = [])

/-- A topology created with legal links is legally wired, with the reader's seeds on each linked channel
(R183, R184, R37), and every move of every agent keeps it legally wired. How a shared channel is held is the
model's (log 12), and so is that a reader whose text is malformed keeps its seeds (log 11). -/
def Obligations.EveryNetworkStepKeepsTheWiring : Prop :=
  (∀ (members : List (List Char × List Word)) (link : List (Option Nat)),
    link.length = members.length →
    (∀ i j : Nat, link[i]? = some (some j) → j < members.length) →
    (∀ i k j : Nat, link[i]? = some (some j) → link[k]? = some (some j) → i = k) →
    (Network.create members link).WellWired ∧
      ∀ (i j : Nat) (text : List Char) (seeds : List Word), link[i]? = some (some j) → members[j]? = some (text, seeds) →
        (Network.create members link).outQueue i = seeds) ∧
  ∀ (n n' : Network) (m : Move), n.WellWired → n.act m = some n' → n'.WellWired

/-- R183, R208: the host appends to the `IN` of an instance exactly when no instance's `OUT` is it, and
takes from an `OUT`, the oldest value, exactly when it is no instance's `IN` and holds a value. From the
`IN` of a halted reader it may take what is left (R185); that it may from no other reader's, a Failed one's
among them, is the model's (log 19). No host move changes `ip`, `rb`, memory, `st` or `err` of any instance,
or the wiring. -/
def Obligations.HostMovesNeedTheirRoles : Prop :=
  (∀ (n : Network) (j : Nat) (v : Word) (s : State), n.cores[j]? = some s →
    ((∃ n', n.act (.host (.feed j v)) = some n') ↔ ∀ i, n.reader i ≠ some j) ∧
    ∀ n', n.act (.host (.feed j v)) = some n' →
      n'.cores[j]? = some { s with inCh := s.inCh ++ [v] } ∧
      ∀ k : Nat, k ≠ j → n'.cores[k]? = n.cores[k]?) ∧
  (∀ (n : Network) (i : Nat) (s : State), n.cores[i]? = some s →
    ((∃ p, n.hostDrain i = some p) ↔ n.reader i = none ∧ s.outCh ≠ []) ∧
    ∀ v n', n.hostDrain i = some (v, n') →
      ∃ vs, s.outCh = v :: vs ∧ n'.cores[i]? = some { s with outCh := vs } ∧
        ∀ k : Nat, k ≠ i → n'.cores[k]? = n.cores[k]?) ∧
  (∀ (n : Network) (j : Nat) (s : State), n.cores[j]? = some s →
    ((∃ p, n.hostCollect j = some p) ↔ s.st = .halted ∧ s.inCh ≠ []) ∧
    ∀ v n', n.hostCollect j = some (v, n') →
      ∃ vs, s.inCh = v :: vs ∧ n'.cores[j]? = some { s with inCh := vs } ∧
        ∀ k : Nat, k ≠ j → n'.cores[k]? = n.cores[k]?) ∧
  ∀ (n n' : Network) (h : HostMove), n.act (.host h) = some n' →
    n'.link = n.link ∧ n'.cores.length = n.cores.length ∧
    ∀ (k : Nat) (s : State), n.cores[k]? = some s → ∃ t : State, n'.cores[k]? = some t ∧
      t.ip = s.ip ∧ t.rb = s.rb ∧ t.mem = s.mem ∧ t.st = s.st ∧ t.err = s.err

/-- R188: once an instance is Failed the run is reported failed, with the Failed instances and their errors,
for good; under no moves does any instance take another step, and none has its state or error record
written. That the host stops the others before the next move is the model's choice (log 20). -/
def Obligations.AFailureStopsTheWholeRun : Prop :=
  ∀ (n : Network) (i : Nat) (s : State), n.cores[i]? = some s → s.st = .failed →
    (i, s.err) ∈ n.failures ∧ n.finished = true ∧
    ∀ ms, (Network.run ms n).report = .failed n.failures ∧
      ∀ (k : Nat) (u : State), n.cores[k]? = some u → ∃ t : State, (Network.run ms n).cores[k]? = some t ∧
        t.ip = u.ip ∧ t.rb = u.rb ∧ t.mem = u.mem ∧ t.st = u.st ∧ t.err = u.err

/-- R187: with every instance Blocked, every `IN` empty and no host move pending, no instance may step, the
pending moves change nothing, and the run is not over and not failed. In a closed loop, where each `IN` is
some instance's `OUT`, it is unrecoverable: under any moves of any agent all still wait. -/
def Obligations.DeadlockIsAStuckState : Prop :=
  ∀ (n : Network) (pending : List Move), n.cores ≠ [] → n.deadlocked pending = true →
    (∀ i, n.stepCore i = none) ∧ Network.run pending n = n ∧ n.report = .going ∧
    n.finished = false ∧
    ((∀ j, j < n.cores.length → ∃ i, n.reader i = some j) →
      ∀ ms, (Network.run ms n).allWaiting = true ∧ (Network.run ms n).report = .going)

/-- R189: steps of two different instances, neither a hold, lead to the same network in either order, so
the schedule does not matter to them. -/
def Obligations.StepsOfTwoInstancesCommute : Prop :=
  ∀ (n m k : Network) (i j : Nat) (s t : State),
    n.WellWired → i ≠ j → n.stepCore i = some m → n.stepCore j = some k →
    m.cores[i]? = some s → s.st ≠ .blocked → k.cores[j]? = some t → t.st ≠ .blocked →
    ∃ r, m.stepCore j = some r ∧ k.stepCore i = some r
end

