-- ==== Sys2Proof/Laws/Decode.lean ====
section
/-! SUPPORT. The encoding tables read one way undo the other way, digit by digit. -/

namespace Sys2Proof

@[simp] theorem opcodeOf_opcodeCode (op : Opcode) : opcodeOf (opcodeCode op) = some op := by
  cases op <;> rfl

@[simp] theorem modeOf_modeDigit (m : Mode) : modeOf (modeDigit m) = some m := by
  cases m <;> rfl

theorem opcodeOf_eq_some (c : Nat) (op : Opcode) (h : opcodeOf c = some op) : c = opcodeCode op := by
  unfold opcodeOf at h
  repeat' split at h
  all_goals first
    | (cases h; subst_vars; rfl)
    | cases h

theorem modeOf_eq_some (d : Nat) (m : Mode) (h : modeOf d = some m) : d = modeDigit m := by
  unfold modeOf at h
  repeat' split at h
  all_goals first
    | (cases h; subst_vars; rfl)
    | cases h

theorem modeOf_eq_none_iff (d : Nat) : modeOf d = none ↔ 2 < d := by
  unfold modeOf
  repeat' split
  all_goals simp
  all_goals omega

theorem modeDigit_le (m : Mode) : modeDigit m ≤ 2 := by cases m <;> decide

theorem opcodeCode_lt (op : Opcode) : opcodeCode op < 100 := by cases op <;> decide

theorem modesPrefix_lt (os : List Operand) (h : os.length ≤ 3) : modesPrefix os < 1000 := by
  match os, h with
  | [], _ => decide
  | [a], _ =>
    have := modeDigit_le a.mode
    simp only [modesPrefix]
    omega
  | [a, b], _ =>
    have := modeDigit_le a.mode
    have := modeDigit_le b.mode
    simp only [modesPrefix]
    omega
  | [a, b, c], _ =>
    have := modeDigit_le a.mode
    have := modeDigit_le b.mode
    have := modeDigit_le c.mode
    simp only [modesPrefix]
    omega

theorem operands_length_le (i : Instr) : i.operands.length ≤ 3 := by
  cases i <;> simp [Instr.operands]

theorem headWord_lt (i : Instr) : headWord i < 100000 := by
  have := modesPrefix_lt i.operands (operands_length_le i)
  have := opcodeCode_lt i.opcode
  unfold headWord
  omega

/-- The instruction word of an encoding is the canonical word as an integer: nothing is cut off. -/
theorem toInt_headWord (i : Instr) : (Int64.ofNat (headWord i)).toInt = headWord i := by
  have := headWord_lt i
  exact Int64.toInt_ofNat_of_lt (by omega)

theorem headWord_mod (i : Instr) : headWord i % 100 = opcodeCode i.opcode := by
  have := opcodeCode_lt i.opcode
  unfold headWord
  omega

@[simp] theorem cellAt_zero (w : Word) (cs : List Word) : cellAt (w :: cs) 0 = w := rfl

@[simp] theorem cellAt_succ (w : Word) (cs : List Word) (k : Nat) :
    cellAt (w :: cs) (k + 1) = cellAt cs k := by
  simp [cellAt]

@[simp] theorem encode_length (i : Instr) : (encode i).length = i.length := by
  simp [encode, Instr.length]

end Sys2Proof
end

