-- ==== Sys2Proof/Laws/Memory.lean ====
section
/-! SUPPORT. Memory: a read after a write (R42, R43), and that every operation keeps the canonical
form. -/

namespace Sys2Proof.Machine

/-! ## Reads -/

@[simp] theorem read_nil (a : Nat) : Memory.read [] a = 0 := rfl

theorem read_erase (m : Memory) (a b : Nat) :
    Memory.read (Memory.erase a m) b = if b = a then 0 else Memory.read m b := by
  induction m with
  | nil => simp [Memory.erase]
  | cons c m ih =>
    obtain ⟨d, u⟩ := c
    by_cases h : a = d
    · subst h
      simp only [Memory.erase, if_true, ih, Memory.read]
      split <;> simp_all
    · simp only [Memory.erase, h, if_false, Memory.read, ih]
      by_cases hb : b = d
      · subst hb
        simp [Ne.symm h]
      · simp [hb]

theorem read_insert (m : Memory) (a b : Nat) (v : Word) (hn : ∀ c ∈ m, c.1 ≠ a) :
    Memory.read (Memory.insert a v m) b = if b = a then v else Memory.read m b := by
  induction m with
  | nil => simp [Memory.insert, Memory.read]
  | cons c m ih =>
    obtain ⟨d, u⟩ := c
    have hd : d ≠ a := hn (d, u) (by simp)
    have ih' := ih (fun c hc => hn c (by simp [hc]))
    simp only [Memory.insert]
    split
    · simp [Memory.read]
    · simp only [Memory.read, ih']
      by_cases hb : b = d
      · subst hb
        simp [hd]
      · simp [hb]

theorem mem_erase (m : Memory) (a : Nat) : ∀ c ∈ Memory.erase a m, c.1 ≠ a := by
  induction m with
  | nil => simp [Memory.erase]
  | cons c m ih =>
    obtain ⟨d, u⟩ := c
    intro c hc
    simp only [Memory.erase] at hc
    split at hc
    · exact ih c hc
    · rename_i h
      obtain rfl | hc := List.mem_cons.1 hc
      · exact fun h' => h h'.symm
      · exact ih c hc

/-! ## The canonical form -/

theorem wfFrom_cons (lo a : Nat) (v : Word) (m : Memory) :
    Memory.wfFrom lo ((a, v) :: m) = true ↔
      lo ≤ a ∧ a ≤ maxAddr ∧ v ≠ 0 ∧ Memory.wfFrom (a + 1) m = true := by
  simp [Memory.wfFrom, and_assoc]

theorem wfFrom_mono {lo lo' : Nat} (h : lo' ≤ lo) (m : Memory) (hm : Memory.wfFrom lo m = true) :
    Memory.wfFrom lo' m = true := by
  cases m with
  | nil => rfl
  | cons c m =>
    obtain ⟨a, v⟩ := c
    rw [wfFrom_cons] at hm ⊢
    exact ⟨by omega, hm.2⟩

/-- In a canonical memory nothing below the bound is listed. -/
theorem read_below (m : Memory) (lo a : Nat) (hm : Memory.wfFrom lo m = true) (h : a < lo) :
    Memory.read m a = 0 := by
  induction m generalizing lo with
  | nil => rfl
  | cons c m ih =>
    obtain ⟨b, v⟩ := c
    obtain ⟨hb, -, -, hm⟩ := (wfFrom_cons _ _ _ _).1 hm
    have : a ≠ b := by omega
    simp only [Memory.read, this, if_false]
    exact ih (b + 1) hm (by omega)

theorem wfFrom_erase (m : Memory) (lo a : Nat) (hm : Memory.wfFrom lo m = true) :
    Memory.wfFrom lo (Memory.erase a m) = true := by
  induction m generalizing lo with
  | nil => rfl
  | cons c m ih =>
    obtain ⟨b, v⟩ := c
    obtain ⟨hb, hbm, hv, hm⟩ := (wfFrom_cons _ _ _ _).1 hm
    simp only [Memory.erase]
    split
    · exact wfFrom_mono (by omega) _ (ih _ hm)
    · exact (wfFrom_cons _ _ _ _).2 ⟨hb, hbm, hv, ih _ hm⟩

theorem wfFrom_insert (m : Memory) (lo a : Nat) (v : Word) (hm : Memory.wfFrom lo m = true)
    (hlo : lo ≤ a) (ha : a ≤ maxAddr) (hv : v ≠ 0) (hn : ∀ c ∈ m, c.1 ≠ a) :
    Memory.wfFrom lo (Memory.insert a v m) = true := by
  induction m generalizing lo with
  | nil => simp [Memory.insert, Memory.wfFrom, hlo, ha, hv]
  | cons c m ih =>
    obtain ⟨b, u⟩ := c
    obtain ⟨hb, hbm, hu, hm⟩ := (wfFrom_cons _ _ _ _).1 hm
    have hne : b ≠ a := hn (b, u) (by simp)
    simp only [Memory.insert]
    split
    · exact (wfFrom_cons _ _ _ _).2 ⟨hlo, ha, hv, (wfFrom_cons _ _ _ _).2 ⟨by omega, hbm, hu, hm⟩⟩
    · exact (wfFrom_cons _ _ _ _).2
        ⟨hb, hbm, hu, ih _ hm (by omega) (fun c hc => hn c (by simp [hc]))⟩

/-- Every write to an address of the address space keeps the canonical form. -/
theorem wf_write (m : Memory) (a : Nat) (v : Word) (hm : Memory.wf m = true) (ha : a ≤ maxAddr) :
    Memory.wf (Memory.write m a v) = true := by
  unfold Memory.write
  split
  · exact wfFrom_erase m 0 a hm
  · rename_i hv
    exact wfFrom_insert _ 0 a v (wfFrom_erase m 0 a hm) (by omega) ha hv (mem_erase m a)

/-- Loading cells keeps the canonical form. -/
theorem wf_loadCells (a : Nat) (vs : List Word) (m : Memory) (hm : Memory.wf m = true) :
    Memory.wf (loadCells a vs m) = true := by
  induction vs generalizing a m with
  | nil => exact hm
  | cons v vs ih =>
    refine ih (a + 1) _ ?_
    split
    · exact wf_write m a v hm ‹_›
    · exact hm

theorem wf_reset : Memory.wf State.reset.mem = true := rfl

/-! ## Addresses -/

theorem checkAddress_ok_iff (a : Int) (p : Nat) : checkAddress a = .ok p ↔ a = (p : Int) := by
  unfold checkAddress
  split
  · simp only [reduceCtorEq, false_iff]
    omega
  · simp only [Except.ok.injEq]
    omega

theorem checkAddress_error_iff (a : Int) (e : Trap) :
    checkAddress a = .error e ↔ a < 0 ∧ e = .negativeAddress a := by
  unfold checkAddress
  split
  · simp_all [eq_comm]
  · simp_all

theorem memRead_ok_iff (a : Int) (s : State) (v : Word) :
    memRead a s = .ok v ↔ 0 ≤ a ∧ v = Memory.read s.mem a.toNat := by
  unfold memRead checkAddress
  split
  · simp only [bind, Except.bind, reduceCtorEq, false_iff]
    omega
  · simp only [bind, Except.bind, Except.ok.injEq]
    constructor
    · rintro rfl
      exact ⟨by omega, rfl⟩
    · rintro ⟨-, rfl⟩
      rfl

theorem memRead_error_iff (a : Int) (s : State) (e : Trap) :
    memRead a s = .error e ↔ a < 0 ∧ e = .negativeAddress a := by
  unfold memRead checkAddress
  split
  · simp_all [bind, Except.bind, eq_comm]
  · simp_all [bind, Except.bind]

end Sys2Proof.Machine
end

