-- ==== Sys2Proof/Laws/Network.lean ====
section
/-! SUPPORT. What each operation of a network can do, once: the roles, the instances' steps, the host's moves. -/

namespace Sys2Proof.Machine

theorem mayStep_iff (s : State) :
    mayStep s = true ↔ s.st = .running ∨ (s.st = .blocked ∧ s.inCh ≠ []) := by
  cases h : s.st <;> simp [mayStep, h]

/-! ## Wiring and roles -/

theorem reader_eq_some_iff (n : Network) (i j : Nat) :
    n.reader i = some j ↔ n.link[i]? = some (some j) := by
  unfold Network.reader
  rcases n.link[i]? with _ | _ | x <;> simp

theorem hostWrites_iff (n : Network) (j : Nat) :
    n.hostWrites j = true ↔ j < n.cores.length ∧ ∀ i, n.reader i ≠ some j := by
  simp [Network.hostWrites, reader_eq_some_iff, List.mem_iff_getElem?]

theorem hostReads_iff (n : Network) (i : Nat) :
    n.hostReads i = true ↔ i < n.cores.length ∧ n.reader i = none := by
  simp [Network.hostReads]

/-! ## The instances' steps -/

@[simp] theorem deliver_link (n : Network) (i : Nat) (t : State) : (n.deliver i t).link = n.link := by
  unfold Network.deliver
  split <;> rfl

@[simp] theorem deliver_stopped (n : Network) (i : Nat) (t : State) :
    (n.deliver i t).stopped = n.stopped := by
  unfold Network.deliver
  split <;> rfl

@[simp] theorem deliver_length (n : Network) (i : Nat) (t : State) :
    (n.deliver i t).cores.length = n.cores.length := by
  unfold Network.deliver
  split <;> simp

/-- Instance `k` after `t` is delivered at `i`: its own new state, and what the channel brings it. -/
theorem deliver_getElem? (n : Network) (i k : Nat) (t : State) (hi : i < n.cores.length) :
    (n.deliver i t).cores[k]? =
      (if k = i then some (match n.reader i with | none => t | some _ => { t with outCh := [] })
        else n.cores[k]?).map (fun s => if n.reader i = some k then feedAll t.outCh s else s) := by
  unfold Network.deliver
  by_cases hk : k = i
  · subst hk
    cases n.reader k with
    | none => simp [hi]
    | some j => by_cases hj : j = k <;> simp [hi, hj]
  · cases n.reader i with
    | none => simp [hk, List.getElem?_set_ne (Ne.symm hk)]
    | some j => by_cases hj : j = k <;>
        simp [List.getElem?_set_ne (Ne.symm hk), hk, hj]

/-- A step of instance `i` (R186): it may step, is not stopped, and its next state is delivered. -/
theorem stepCore_eq_some_iff (n n' : Network) (i : Nat) :
    n.stepCore i = some n' ↔ ∃ s t, n.cores[i]? = some s ∧ mayStep s = true ∧
      n.isStopped i = false ∧ step s = .next t ∧ n' = n.deliver i t := by
  constructor
  · intro h
    unfold Network.stepCore at h
    split at h
    · cases h
    · rename_i s hs
      split at h
      · rename_i hm
        split at h
        · rename_i t ht
          simp only [Bool.and_eq_true, Bool.not_eq_true'] at hm
          exact ⟨s, t, hs, hm.1, hm.2, ht, (Option.some.inj h).symm⟩
        · cases h
        · cases h
      · cases h
  · rintro ⟨s, t, hs, hm, hq, ht, rfl⟩
    simp [Network.stepCore, hs, hm, hq, ht]

/-! ## The host's moves -/

/-- A feed (R208): in the writer role, one value at the tail of the `IN` of instance `j`. -/
theorem hostFeed_eq_some_iff (n n' : Network) (j : Nat) (v : Word) :
    n.hostFeed j v = some n' ↔ j < n.cores.length ∧ (∀ i, n.reader i ≠ some j) ∧
      n' = { n with cores := n.cores.modify j (feed v) } := by
  unfold Network.hostFeed
  split
  · rename_i h
    rw [hostWrites_iff] at h
    simp [h.1, h.2, eq_comm]
  · rename_i h
    rw [hostWrites_iff] at h
    simp only [reduceCtorEq, false_iff]
    exact fun hn => h ⟨hn.1, hn.2.1⟩

/-- A drain (R208): in the reader role, the oldest value of the `OUT` of instance `i`. -/
theorem hostDrain_eq_some_iff (n n' : Network) (i : Nat) (v : Word) :
    n.hostDrain i = some (v, n') ↔ ∃ s vs, n.cores[i]? = some s ∧ n.reader i = none ∧
      s.outCh = v :: vs ∧ n' = { n with cores := n.cores.set i { s with outCh := vs } } := by
  unfold Network.hostDrain Network.hostReads drain
  cases hs : n.cores[i]? with
  | none => simp
  | some s =>
    have := (List.getElem?_eq_some_iff.1 hs).1
    cases hr : n.reader i <;> cases ho : s.outCh <;> simp [this, ho, eq_comm]

/-- A collection (R185): the oldest value left in the `IN` of a halted instance `j`. -/
theorem hostCollect_eq_some_iff (n n' : Network) (j : Nat) (v : Word) :
    n.hostCollect j = some (v, n') ↔ ∃ s vs, n.cores[j]? = some s ∧ s.st = .halted ∧
      s.inCh = v :: vs ∧ n' = { n with cores := n.cores.set j { s with inCh := vs } } := by
  unfold Network.hostCollect collect
  cases hs : n.cores[j]? with
  | none => simp
  | some s => cases hr : s.st <;> cases ho : s.inCh <;> simp [hr, ho, eq_comm]

/-! ## The run -/

theorem allWaiting_iff (n : Network) :
    n.allWaiting = true ↔ ∀ s ∈ n.cores, s.st = .blocked ∧ s.inCh = [] := by
  simp [Network.allWaiting]

/-- Exactly the Failed instances are reported (R188). -/
theorem mem_failures_iff (n : Network) (i : Nat) (e : ErrorRecord) :
    (i, e) ∈ n.failures ↔ ∃ s, n.cores[i]? = some s ∧ s.st = .failed ∧ s.err = e := by
  simp only [Network.failures, List.mem_filterMap, Prod.exists, List.mem_zipIdx_iff_getElem?,
    Option.ite_none_right_eq_some, Option.some.injEq, Prod.mk.injEq]
  constructor
  · rintro ⟨s, k, h1, h2, rfl, h3⟩
    exact ⟨s, h1, h2, h3⟩
  · rintro ⟨s, h1, h2, h3⟩
    exact ⟨s, i, h1, h2, rfl, h3⟩

end Sys2Proof.Machine
end

