-- ==== Sys2Proof/Laws/State.lean ====
section
/-! SUPPORT. One lemma per field per update of State, so that no proof unfolds a record update. -/

namespace Sys2Proof.Machine

@[simp] theorem memWrite_ip (t : Nat) (v : Word) (s : State) : (memWrite t v s).ip = s.ip := rfl
@[simp] theorem memWrite_rb (t : Nat) (v : Word) (s : State) : (memWrite t v s).rb = s.rb := rfl
@[simp] theorem memWrite_mem (t : Nat) (v : Word) (s : State) : (memWrite t v s).mem = Memory.write s.mem t v := rfl
@[simp] theorem memWrite_st (t : Nat) (v : Word) (s : State) : (memWrite t v s).st = s.st := rfl
@[simp] theorem memWrite_err (t : Nat) (v : Word) (s : State) : (memWrite t v s).err = s.err := rfl
@[simp] theorem memWrite_inCh (t : Nat) (v : Word) (s : State) : (memWrite t v s).inCh = s.inCh := rfl
@[simp] theorem memWrite_outCh (t : Nat) (v : Word) (s : State) : (memWrite t v s).outCh = s.outCh := rfl

@[simp] theorem goto_ip (t : Nat) (s : State) : (goto t s).ip = t := rfl
@[simp] theorem goto_rb (t : Nat) (s : State) : (goto t s).rb = s.rb := rfl
@[simp] theorem goto_mem (t : Nat) (s : State) : (goto t s).mem = s.mem := rfl
@[simp] theorem goto_st (t : Nat) (s : State) : (goto t s).st = .running := rfl
@[simp] theorem goto_err (t : Nat) (s : State) : (goto t s).err = s.err := rfl
@[simp] theorem goto_inCh (t : Nat) (s : State) : (goto t s).inCh = s.inCh := rfl
@[simp] theorem goto_outCh (t : Nat) (s : State) : (goto t s).outCh = s.outCh := rfl

@[simp] theorem setRb_ip (v : Word) (s : State) : (setRb v s).ip = s.ip := rfl
@[simp] theorem setRb_rb (v : Word) (s : State) : (setRb v s).rb = v := rfl
@[simp] theorem setRb_mem (v : Word) (s : State) : (setRb v s).mem = s.mem := rfl
@[simp] theorem setRb_st (v : Word) (s : State) : (setRb v s).st = s.st := rfl
@[simp] theorem setRb_err (v : Word) (s : State) : (setRb v s).err = s.err := rfl
@[simp] theorem setRb_inCh (v : Word) (s : State) : (setRb v s).inCh = s.inCh := rfl
@[simp] theorem setRb_outCh (v : Word) (s : State) : (setRb v s).outCh = s.outCh := rfl

@[simp] theorem halted_ip (s : State) : (halted s).ip = s.ip := rfl
@[simp] theorem halted_rb (s : State) : (halted s).rb = s.rb := rfl
@[simp] theorem halted_mem (s : State) : (halted s).mem = s.mem := rfl
@[simp] theorem halted_st (s : State) : (halted s).st = .halted := rfl
@[simp] theorem halted_err (s : State) : (halted s).err = s.err := rfl
@[simp] theorem halted_inCh (s : State) : (halted s).inCh = s.inCh := rfl
@[simp] theorem halted_outCh (s : State) : (halted s).outCh = s.outCh := rfl

@[simp] theorem hold_ip (s : State) : (hold s).ip = s.ip := rfl
@[simp] theorem hold_rb (s : State) : (hold s).rb = s.rb := rfl
@[simp] theorem hold_mem (s : State) : (hold s).mem = s.mem := rfl
@[simp] theorem hold_st (s : State) : (hold s).st = .blocked := rfl
@[simp] theorem hold_err (s : State) : (hold s).err = s.err := rfl
@[simp] theorem hold_inCh (s : State) : (hold s).inCh = s.inCh := rfl
@[simp] theorem hold_outCh (s : State) : (hold s).outCh = s.outCh := rfl

@[simp] theorem inTake_ip (s : State) : (inTake s).ip = s.ip := rfl
@[simp] theorem inTake_rb (s : State) : (inTake s).rb = s.rb := rfl
@[simp] theorem inTake_mem (s : State) : (inTake s).mem = s.mem := rfl
@[simp] theorem inTake_st (s : State) : (inTake s).st = s.st := rfl
@[simp] theorem inTake_err (s : State) : (inTake s).err = s.err := rfl
@[simp] theorem inTake_inCh (s : State) : (inTake s).inCh = s.inCh.tail := rfl
@[simp] theorem inTake_outCh (s : State) : (inTake s).outCh = s.outCh := rfl

@[simp] theorem outPut_ip (v : Word) (s : State) : (outPut v s).ip = s.ip := rfl
@[simp] theorem outPut_rb (v : Word) (s : State) : (outPut v s).rb = s.rb := rfl
@[simp] theorem outPut_mem (v : Word) (s : State) : (outPut v s).mem = s.mem := rfl
@[simp] theorem outPut_st (v : Word) (s : State) : (outPut v s).st = s.st := rfl
@[simp] theorem outPut_err (v : Word) (s : State) : (outPut v s).err = s.err := rfl
@[simp] theorem outPut_inCh (v : Word) (s : State) : (outPut v s).inCh = s.inCh := rfl
@[simp] theorem outPut_outCh (v : Word) (s : State) : (outPut v s).outCh = s.outCh ++ [v] := rfl

@[simp] theorem raise_ip (e : Trap) (s : State) : (raise e s).ip = s.ip := rfl
@[simp] theorem raise_rb (e : Trap) (s : State) : (raise e s).rb = s.rb := rfl
@[simp] theorem raise_mem (e : Trap) (s : State) : (raise e s).mem = s.mem := rfl
@[simp] theorem raise_st (e : Trap) (s : State) : (raise e s).st = .failed := rfl
@[simp] theorem raise_err (e : Trap) (s : State) : (raise e s).err = ⟨trapKind e, s.ip, Memory.read s.mem s.ip, trapAddr e⟩ := rfl
@[simp] theorem raise_inCh (e : Trap) (s : State) : (raise e s).inCh = s.inCh := rfl
@[simp] theorem raise_outCh (e : Trap) (s : State) : (raise e s).outCh = s.outCh := rfl

@[simp] theorem feed_ip (v : Word) (s : State) : (feed v s).ip = s.ip := rfl
@[simp] theorem feed_rb (v : Word) (s : State) : (feed v s).rb = s.rb := rfl
@[simp] theorem feed_mem (v : Word) (s : State) : (feed v s).mem = s.mem := rfl
@[simp] theorem feed_st (v : Word) (s : State) : (feed v s).st = s.st := rfl
@[simp] theorem feed_err (v : Word) (s : State) : (feed v s).err = s.err := rfl
@[simp] theorem feed_inCh (v : Word) (s : State) : (feed v s).inCh = s.inCh ++ [v] := rfl
@[simp] theorem feed_outCh (v : Word) (s : State) : (feed v s).outCh = s.outCh := rfl

@[simp] theorem feedAll_ip (vs : List Word) (s : State) : (feedAll vs s).ip = s.ip := rfl
@[simp] theorem feedAll_rb (vs : List Word) (s : State) : (feedAll vs s).rb = s.rb := rfl
@[simp] theorem feedAll_mem (vs : List Word) (s : State) : (feedAll vs s).mem = s.mem := rfl
@[simp] theorem feedAll_st (vs : List Word) (s : State) : (feedAll vs s).st = s.st := rfl
@[simp] theorem feedAll_err (vs : List Word) (s : State) : (feedAll vs s).err = s.err := rfl
@[simp] theorem feedAll_inCh (vs : List Word) (s : State) : (feedAll vs s).inCh = s.inCh ++ vs := rfl
@[simp] theorem feedAll_outCh (vs : List Word) (s : State) : (feedAll vs s).outCh = s.outCh := rfl

@[simp] theorem inHead_eq (s : State) : inHead s = s.inCh.head? := rfl

@[simp] theorem reset_ip : State.reset.ip = 0 := rfl
@[simp] theorem reset_rb : State.reset.rb = 0 := rfl
@[simp] theorem reset_mem : State.reset.mem = [] := rfl
@[simp] theorem reset_st : State.reset.st = .running := rfl
@[simp] theorem reset_err : State.reset.err = ErrorRecord.empty := rfl
@[simp] theorem reset_inCh : State.reset.inCh = [] := rfl
@[simp] theorem reset_outCh : State.reset.outCh = [] := rfl

@[simp] theorem create_ip (p q : List Word) : (create p q).ip = 0 := rfl
@[simp] theorem create_rb (p q : List Word) : (create p q).rb = 0 := rfl
@[simp] theorem create_mem (p q : List Word) : (create p q).mem = loadCells 0 p [] := rfl
@[simp] theorem create_st (p q : List Word) : (create p q).st = .running := rfl
@[simp] theorem create_err (p q : List Word) : (create p q).err = ErrorRecord.empty := rfl
@[simp] theorem create_inCh (p q : List Word) : (create p q).inCh = q := rfl
@[simp] theorem create_outCh (p q : List Word) : (create p q).outCh = [] := rfl

end Sys2Proof.Machine
end

