-- ==== Sys2Proof/Laws/Word.lean ====
section
/-! SUPPORT. Checked arithmetic (R10): what `narrow`, `add64` and `mul64` answer, said once. -/

namespace Sys2Proof.Machine

theorem word_range (v : Word) : minInt ≤ v.toInt ∧ v.toInt ≤ maxInt := by
  have h1 := Int64.le_toInt v
  have h2 := Int64.toInt_lt v
  simp only [minInt, maxInt]
  omega

theorem narrow_ok_iff (v : Int) (r : Word) : narrow v = .ok r ↔ r.toInt = v := by
  have hr := word_range r
  unfold narrow
  split
  · rename_i h
    simp only [minInt, maxInt] at h
    simp only [Except.ok.injEq]
    constructor
    · rintro rfl
      exact Int64.toInt_ofInt_of_le (by omega) (by omega)
    · rintro rfl
      exact Int64.ofInt_toInt r
  · rename_i h
    simp only [reduceCtorEq, false_iff]
    rintro rfl
    exact h hr

theorem narrow_error_iff (v : Int) (e : Trap) :
    narrow v = .error e ↔ e = .arithmeticOverflow ∧ (v < minInt ∨ maxInt < v) := by
  unfold narrow
  split
  · rename_i h
    simp only [reduceCtorEq, false_iff]
    rintro ⟨-, h'⟩
    omega
  · rename_i h
    simp only [Except.error.injEq]
    constructor
    · rintro rfl
      exact ⟨rfl, by omega⟩
    · rintro ⟨rfl, -⟩
      rfl

theorem add64_ok_iff (a b r : Word) : add64 a b = .ok r ↔ r.toInt = a.toInt + b.toInt :=
  narrow_ok_iff _ _

theorem mul64_ok_iff (a b r : Word) : mul64 a b = .ok r ↔ r.toInt = a.toInt * b.toInt :=
  narrow_ok_iff _ _

theorem add64_error_iff (a b : Word) (e : Trap) : add64 a b = .error e ↔
    e = .arithmeticOverflow ∧ (a.toInt + b.toInt < minInt ∨ maxInt < a.toInt + b.toInt) :=
  narrow_error_iff _ _

theorem mul64_error_iff (a b : Word) (e : Trap) : mul64 a b = .error e ↔
    e = .arithmeticOverflow ∧ (a.toInt * b.toInt < minInt ∨ maxInt < a.toInt * b.toInt) :=
  narrow_error_iff _ _

end Sys2Proof.Machine
end

