-- ==== Sys2Proof/Laws/Ops.lean ====
section
/-! SUPPORT. What each shared operation can answer, said once; a proof cites these and does not unfold
the operation. -/

namespace Sys2Proof.Machine

/-! ## Sequencing -/

theorem bind_ok_iff {α β : Type} (x : Except Trap α) (f : α → Except Trap β) (b : β) :
    (x >>= f) = .ok b ↔ ∃ a, x = .ok a ∧ f a = .ok b := by
  cases x <;> simp [bind, Except.bind]

theorem bind_error_iff {α β : Type} (x : Except Trap α) (f : α → Except Trap β) (e : Trap) :
    (x >>= f) = .error e ↔ x = .error e ∨ ∃ a, x = .ok a ∧ f a = .error e := by
  cases x <;> simp [bind, Except.bind]

@[simp] theorem bind_ok {α β : Type} (a : α) (f : α → Except Trap β) :
    ((Except.ok a : Except Trap α) >>= f) = f a := rfl

@[simp] theorem bind_error {α β : Type} (e : Trap) (f : α → Except Trap β) :
    ((Except.error e : Except Trap α) >>= f) = .error e := rfl

@[simp] theorem conclude_ok (s t : State) : conclude s (.ok t) = .next t := rfl

@[simp] theorem conclude_error (s : State) (e : Trap) :
    conclude s (.error e) = .next (raise e s) := rfl

/-- A concluded step either has all its effects, or raised in the state before it. -/
theorem conclude_eq_next_iff (s t : State) (r : Except Trap State) :
    conclude s r = .next t ↔ r = .ok t ∨ ∃ e, r = .error e ∧ t = raise e s := by
  cases r <;> simp [conclude, eq_comm]

/-! ## Successor and operands -/

theorem successor_ok_iff (n : Nat) (s : State) (p : Nat) :
    successor n s = .ok p ↔ s.ip + n + 1 ≤ maxAddr ∧ p = s.ip + n + 1 := by
  unfold successor
  split <;> simp_all [eq_comm]

theorem successor_error_iff (n : Nat) (s : State) (e : Trap) :
    successor n s = .error e ↔ maxAddr < s.ip + n + 1 ∧ e = .arithmeticOverflow := by
  unfold successor
  split
  · simp only [reduceCtorEq, false_iff]
    omega
  · simp only [Except.error.injEq]
    constructor
    · rintro rfl
      exact ⟨by omega, rfl⟩
    · rintro ⟨-, rfl⟩
      rfl

theorem jumpTarget_ok_iff (taken : Bool) (w : Word) (nip p : Nat) :
    jumpTarget taken w nip = .ok p ↔
      (taken = true ∧ w.toInt = (p : Int)) ∨ (taken = false ∧ p = nip) := by
  cases taken
  · simp [jumpTarget, eq_comm]
  · simp [jumpTarget, checkAddress_ok_iff]

theorem jumpTarget_error_iff (taken : Bool) (w : Word) (nip : Nat) (e : Trap) :
    jumpTarget taken w nip = .error e ↔
      taken = true ∧ w.toInt < 0 ∧ e = .negativeAddress w.toInt := by
  cases taken <;> simp [jumpTarget, checkAddress_error_iff]

/-- A resolved write target is an address of the address space (R88). -/
theorem resolveWrite_le (d : Operand) (s : State) (t : Nat) (h : resolveWrite d s = .ok t) :
    t ≤ maxAddr := by
  unfold resolveWrite at h
  split at h
  · rw [checkAddress_ok_iff] at h
    have := (word_range d.cell).2
    simp only [maxInt, maxAddr] at *
    omega
  · cases h
  · obtain ⟨a, -, h⟩ := (bind_ok_iff _ _ _).1 h
    rw [checkAddress_ok_iff] at h
    have := (word_range a).2
    simp only [maxInt, maxAddr] at *
    omega

/-! ## Errors a step may raise -/

/-- What an operand or an operation may raise (R160): NegativeAddress carries a negative integer, and
MalformedProgramText is the loader's alone. -/
def StepTrap (e : Trap) : Prop := (∀ a, e = .negativeAddress a → a < 0) ∧ e ≠ .malformedProgramText

theorem stepTrap_arithmeticOverflow : StepTrap .arithmeticOverflow := ⟨nofun, nofun⟩

theorem stepTrap_invalidWriteTarget : StepTrap .invalidWriteTarget := ⟨nofun, nofun⟩

theorem stepTrap_negativeAddress {a : Int} (h : a < 0) : StepTrap (.negativeAddress a) :=
  ⟨fun _ hb => by cases hb; exact h, nofun⟩

theorem stepTrap_narrow (v : Int) (e : Trap) (h : narrow v = .error e) : StepTrap e :=
  ((narrow_error_iff _ _).1 h).1 ▸ stepTrap_arithmeticOverflow

theorem stepTrap_checkAddress (a : Int) (e : Trap) (h : checkAddress a = .error e) : StepTrap e :=
  ((checkAddress_error_iff _ _).1 h).2 ▸ stepTrap_negativeAddress ((checkAddress_error_iff _ _).1 h).1

theorem stepTrap_memRead (a : Int) (s : State) (e : Trap) (h : memRead a s = .error e) :
    StepTrap e :=
  ((memRead_error_iff _ _ _).1 h).2 ▸ stepTrap_negativeAddress ((memRead_error_iff _ _ _).1 h).1

theorem stepTrap_successor (n : Nat) (s : State) (e : Trap) (h : successor n s = .error e) :
    StepTrap e :=
  ((successor_error_iff _ _ _).1 h).2 ▸ stepTrap_arithmeticOverflow

theorem stepTrap_resolveRead (o : Operand) (s : State) (e : Trap) (h : resolveRead o s = .error e) :
    StepTrap e := by
  unfold resolveRead at h
  split at h
  · exact stepTrap_memRead _ _ _ h
  · cases h
  · obtain h | ⟨a, -, h⟩ := (bind_error_iff _ _ _).1 h
    · exact stepTrap_narrow _ _ h
    · exact stepTrap_memRead _ _ _ h

theorem stepTrap_resolveWrite (d : Operand) (s : State) (e : Trap) (h : resolveWrite d s = .error e) :
    StepTrap e := by
  unfold resolveWrite at h
  split at h
  · exact stepTrap_checkAddress _ _ h
  · cases h
    exact stepTrap_invalidWriteTarget
  · obtain h | ⟨a, -, h⟩ := (bind_error_iff _ _ _).1 h
    · exact stepTrap_narrow _ _ h
    · exact stepTrap_checkAddress _ _ h

theorem stepTrap_jumpTarget (taken : Bool) (w : Word) (nip : Nat) (e : Trap)
    (h : jumpTarget taken w nip = .error e) : StepTrap e := by
  obtain ⟨-, hw, rfl⟩ := (jumpTarget_error_iff _ _ _ _).1 h
  exact stepTrap_negativeAddress hw

/-! ## What each format of instruction can answer -/

/-- Format F3 (R80, R89): the result is written and `ip` goes to the successor, or something raised. -/
theorem storeResult_cases (op : Word → Word → Except Trap Word) (a b d : Operand) (s u : State)
    (hop : ∀ v w e, op v w = .error e → StepTrap e) (h : storeResult op a b d s = .next u) :
    (∃ v w t r, s.ip + 4 ≤ maxAddr ∧ resolveRead a s = .ok v ∧ resolveRead b s = .ok w ∧
        resolveWrite d s = .ok t ∧ op v w = .ok r ∧ u = goto (s.ip + 4) (memWrite t r s)) ∨
      ∃ e, StepTrap e ∧ u = raise e s := by
  obtain h | ⟨e, he, rfl⟩ := (conclude_eq_next_iff _ _ _).1 h
  · simp only [bind_ok_iff, successor_ok_iff, Except.ok.injEq] at h
    obtain ⟨_, ⟨hle, rfl⟩, v, hv, w, hw, t, ht, r, hr, rfl⟩ := h
    exact .inl ⟨v, w, t, r, hle, hv, hw, ht, hr, rfl⟩
  · refine .inr ⟨e, ?_, rfl⟩
    simp only [bind_error_iff, reduceCtorEq, and_false, exists_false, or_false] at he
    obtain h | ⟨_, -, h | ⟨_, -, h | ⟨_, -, h | ⟨_, -, h⟩⟩⟩⟩ := he
    · exact stepTrap_successor _ _ _ h
    · exact stepTrap_resolveRead _ _ _ h
    · exact stepTrap_resolveRead _ _ _ h
    · exact stepTrap_resolveWrite _ _ _ h
    · exact hop _ _ _ h

/-- Format F2 (R120, R121, R122): taken, not taken, or something raised. -/
theorem jumpWhen_cases (test : Word → Bool) (a t : Operand) (s u : State)
    (h : jumpWhen test a t s = .next u) :
    (∃ v w, ∃ p : Nat, s.ip + 3 ≤ maxAddr ∧ resolveRead a s = .ok v ∧ resolveRead t s = .ok w ∧
        ((test v = true ∧ w.toInt = (p : Int)) ∨ (test v = false ∧ p = s.ip + 3)) ∧
        u = goto p s) ∨
      ∃ e, StepTrap e ∧ u = raise e s := by
  obtain h | ⟨e, he, rfl⟩ := (conclude_eq_next_iff _ _ _).1 h
  · simp only [bind_ok_iff, successor_ok_iff, Except.ok.injEq] at h
    obtain ⟨_, ⟨hle, rfl⟩, v, hv, w, hw, p, hp, rfl⟩ := h
    exact .inl ⟨v, w, p, hle, hv, hw, (jumpTarget_ok_iff _ _ _ _).1 hp, rfl⟩
  · refine .inr ⟨e, ?_, rfl⟩
    simp only [bind_error_iff, reduceCtorEq, and_false, exists_false, or_false] at he
    obtain h | ⟨_, -, h | ⟨_, -, h | ⟨_, -, h⟩⟩⟩ := he
    · exact stepTrap_successor _ _ _ h
    · exact stepTrap_resolveRead _ _ _ h
    · exact stepTrap_resolveRead _ _ _ h
    · exact stepTrap_jumpTarget _ _ _ _ h

/-- input (R110): a value taken and written, a hold on an empty channel, or something raised. -/
theorem execInput_cases (d : Operand) (s u : State) (h : execInput d s = .next u) :
    (∃ t x xs, s.ip + 2 ≤ maxAddr ∧ resolveWrite d s = .ok t ∧ s.inCh = x :: xs ∧
        u = goto (s.ip + 2) (memWrite t x (inTake s))) ∨
      (∃ t, s.ip + 2 ≤ maxAddr ∧ resolveWrite d s = .ok t ∧ s.inCh = [] ∧ u = hold s) ∨
      ∃ e, StepTrap e ∧ u = raise e s := by
  obtain h | ⟨e, he, rfl⟩ := (conclude_eq_next_iff _ _ _).1 h
  · simp only [bind_ok_iff, successor_ok_iff, inHead_eq] at h
    obtain ⟨_, ⟨hle, rfl⟩, t, ht, h⟩ := h
    cases hc : s.inCh with
    | nil =>
      simp only [hc, List.head?_nil, Except.ok.injEq] at h
      exact .inr (.inl ⟨t, hle, ht, rfl, h.symm⟩)
    | cons x xs =>
      simp only [hc, List.head?_cons, Except.ok.injEq] at h
      exact .inl ⟨t, x, xs, hle, ht, rfl, h.symm⟩
  · refine .inr (.inr ⟨e, ?_, rfl⟩)
    simp only [bind_error_iff] at he
    obtain h | ⟨_, -, h | ⟨_, -, h⟩⟩ := he
    · exact stepTrap_successor _ _ _ h
    · exact stepTrap_resolveWrite _ _ _ h
    · split at h <;> cases h

/-- output (R111): a value appended, or something raised. -/
theorem execOutput_cases (a : Operand) (s u : State) (h : execOutput a s = .next u) :
    (∃ v, s.ip + 2 ≤ maxAddr ∧ resolveRead a s = .ok v ∧ u = goto (s.ip + 2) (outPut v s)) ∨
      ∃ e, StepTrap e ∧ u = raise e s := by
  obtain h | ⟨e, he, rfl⟩ := (conclude_eq_next_iff _ _ _).1 h
  · simp only [bind_ok_iff, successor_ok_iff, Except.ok.injEq] at h
    obtain ⟨_, ⟨hle, rfl⟩, v, hv, rfl⟩ := h
    exact .inl ⟨v, hle, hv, rfl⟩
  · refine .inr ⟨e, ?_, rfl⟩
    simp only [bind_error_iff, reduceCtorEq, and_false, exists_false, or_false] at he
    obtain h | ⟨_, -, h⟩ := he
    · exact stepTrap_successor _ _ _ h
    · exact stepTrap_resolveRead _ _ _ h

/-- adjust-relative-base (R140): the sum stored in `rb`, or something raised. -/
theorem execAdjustRelativeBase_cases (a : Operand) (s u : State)
    (h : execAdjustRelativeBase a s = .next u) :
    (∃ v r, s.ip + 2 ≤ maxAddr ∧ resolveRead a s = .ok v ∧ add64 s.rb v = .ok r ∧
        u = goto (s.ip + 2) (setRb r s)) ∨
      ∃ e, StepTrap e ∧ u = raise e s := by
  obtain h | ⟨e, he, rfl⟩ := (conclude_eq_next_iff _ _ _).1 h
  · simp only [bind_ok_iff, successor_ok_iff, Except.ok.injEq] at h
    obtain ⟨_, ⟨hle, rfl⟩, v, hv, r, hr, rfl⟩ := h
    exact .inl ⟨v, r, hle, hv, hr, rfl⟩
  · refine .inr ⟨e, ?_, rfl⟩
    simp only [bind_error_iff, reduceCtorEq, and_false, exists_false, or_false] at he
    obtain h | ⟨_, -, h | ⟨_, -, h⟩⟩ := he
    · exact stepTrap_successor _ _ _ h
    · exact stepTrap_resolveRead _ _ _ h
    · exact stepTrap_narrow _ _ h

/-! ## The step -/

/-- Where a step goes (R80, R82, R83, R95): the instance was not terminal, and the step either raised a
decode error or ran the decoded instruction. -/
theorem step_eq_next_iff (s u : State) :
    step s = .next u ↔ (s.st = .running ∨ s.st = .blocked) ∧
      ((decode (fetchCells s) = .unknownOpcode ∧ u = raise .unknownOpcode s) ∨
        (decode (fetchCells s) = .invalidParameterMode ∧ u = raise .invalidParameterMode s) ∨
        ∃ i, decode (fetchCells s) = .instr i ∧ exec i s = .next u) := by
  unfold step driver cycle
  cases s.st <;> cases decode (fetchCells s) <;> simp [eq_comm]

end Sys2Proof.Machine
end

