-- ==== Sys2Proof/Laws/PerInstr.lean ====
section
/-! SUPPORT. The family HeadWord (LAWS.json): what the instruction word of an encoding holds (R61, R64),
one lemma per constructor. -/

namespace Sys2Proof.Laws.HeadWord

/-- The canonical word's low two digits are the opcode (R61), operand `k`'s mode is the digit of weight
10^(k+2) (R64), and every digit above the last mode is 0 (R73, R74). -/
def Statement (i : Instr) : Prop :=
  headWord i % 100 = opcodeCode i.opcode ∧
    (∀ k o, i.operands[k]? = some o → digit (k + 2) (headWord i) = modeDigit o.mode) ∧
    headWord i < 10 ^ (i.operands.length + 2)

theorem of_three (i : Instr) (a b d : Operand) (h : i.operands = [a, b, d]) : Statement i := by
  have ha := modeDigit_le a.mode
  have hb := modeDigit_le b.mode
  have hd := modeDigit_le d.mode
  have ho := opcodeCode_lt i.opcode
  refine ⟨headWord_mod i, ?_, ?_⟩
  · intro k o hk
    match k with
    | 0 | 1 | 2 =>
      simp only [h, List.getElem?_cons_zero, List.getElem?_cons_succ, Option.some.injEq] at hk
      subst hk
      simp only [digit, headWord, h, modesPrefix]
      omega
    | k + 3 => simp [h] at hk
  · simp only [headWord, h, modesPrefix, List.length_cons, List.length_nil]
    omega

theorem of_two (i : Instr) (a b : Operand) (h : i.operands = [a, b]) : Statement i := by
  have ha := modeDigit_le a.mode
  have hb := modeDigit_le b.mode
  have ho := opcodeCode_lt i.opcode
  refine ⟨headWord_mod i, ?_, ?_⟩
  · intro k o hk
    match k with
    | 0 | 1 =>
      simp only [h, List.getElem?_cons_zero, List.getElem?_cons_succ, Option.some.injEq] at hk
      subst hk
      simp only [digit, headWord, h, modesPrefix]
      omega
    | k + 2 => simp [h] at hk
  · simp only [headWord, h, modesPrefix, List.length_cons, List.length_nil]
    omega

theorem of_one (i : Instr) (a : Operand) (h : i.operands = [a]) : Statement i := by
  have ha := modeDigit_le a.mode
  have ho := opcodeCode_lt i.opcode
  refine ⟨headWord_mod i, ?_, ?_⟩
  · intro k o hk
    match k with
    | 0 =>
      simp only [h, List.getElem?_cons_zero, Option.some.injEq] at hk
      subst hk
      simp only [digit, headWord, h, modesPrefix]
      omega
    | k + 1 => simp [h] at hk
  · simp only [headWord, h, modesPrefix, List.length_cons, List.length_nil]
    omega

theorem add (a b d : Operand) : Statement (.add a b d) := of_three _ a b d rfl
theorem multiply (a b d : Operand) : Statement (.multiply a b d) := of_three _ a b d rfl
theorem input (d : Operand) : Statement (.input d) := of_one _ d rfl
theorem output (a : Operand) : Statement (.output a) := of_one _ a rfl
theorem jumpIfNotZero (a t : Operand) : Statement (.jumpIfNotZero a t) := of_two _ a t rfl
theorem jumpIfZero (a t : Operand) : Statement (.jumpIfZero a t) := of_two _ a t rfl
theorem lessThan (a b d : Operand) : Statement (.lessThan a b d) := of_three _ a b d rfl
theorem equals (a b d : Operand) : Statement (.equals a b d) := of_three _ a b d rfl
theorem adjustRelativeBase (a : Operand) : Statement (.adjustRelativeBase a) := of_one _ a rfl
theorem halt : Statement .halt := ⟨by decide, by simp [Instr.operands], by decide⟩

end Sys2Proof.Laws.HeadWord
end

