-- ==== Sys2Proof/Tests/Slice0.lean ====
section
/-! SUPPORT. The author's own tests. Expected values are those of the spec's vectors (spec/95_test_vectors.md,
spec/96_test_vectors_derived.md, named by id) or are written out from the encoding rules R61 to R66. After
them, for every statement of Obligations.lean that has hypotheses, a witness that they can be met. -/

namespace Sys2Proof.Tests

open Sys2Proof.Machine

/-! ## Small states -/

/-- An instance loaded with a program, `rb` and `IN` given. -/
def machine (program : List Word) (rb : Word) (inputs : List Word) : State :=
  { create program inputs with rb := rb }

/-- An instance at address `ip` with cells placed from there on. -/
def machineAt (ip : Nat) (cells : List Word) : State :=
  { create [] [] with ip := ip, mem := loadCells ip cells [] }

/-- The next state, when there is one. -/
def after (s : State) : Option State :=
  match step s with
  | .next t => some t
  | .fault _ => none
  | .refused _ => none

/-- `st`, `ip`, `rb` and one cell after a step. -/
def cellAfter (s : State) (a : Nat) : Option (RunState × Nat × Word × Word) :=
  (after s).map (fun t => (t.st, t.ip, t.rb, Memory.read t.mem a))

/-- The error record after a step that ends in Failed with `ip`, `rb`, memory and channels as before. -/
def failsWith (s : State) : Option ErrorRecord :=
  (after s).bind (fun t =>
    if t.st = .failed ∧ { t with st := s.st, err := s.err } = s then some t.err else none)

def pos (c : Word) : Operand := ⟨.position, c⟩
def imm (c : Word) : Operand := ⟨.immediate, c⟩
def rel (c : Word) : Operand := ⟨.relative, c⟩

/-! ## Decoding: every constructor's word, from R61 (opcode + 100 m0 + 1000 m1 + 10000 m2) -/

/-- Opcode 1, m0 = 2, m1 = 1, m2 = 0. -/
theorem test_decode_add :
    decode [1201, 5, -6, 7] = .instr (.add (rel 5) (imm (-6)) (pos 7)) := by decide

/-- Opcode 2, m0 = 0, m1 = 1, m2 = 0: the document's example (DEC11). -/
theorem test_decode_multiply :
    decode [1002, 4, 3, 4, 33] = .instr (.multiply (pos 4) (imm 3) (pos 4)) := by decide

/-- Opcode 3, m0 = 2 (DEC16). -/
theorem test_decode_input : decode [203, -3] = .instr (.input (rel (-3))) := by decide

/-- Opcode 4, m0 = 1. -/
theorem test_decode_output : decode [104, 5] = .instr (.output (imm 5)) := by decide

/-- Opcode 5, m0 = 1, m1 = 2 (DEC20). -/
theorem test_decode_jumpIfNotZero :
    decode [2105, 8, 9] = .instr (.jumpIfNotZero (imm 8) (rel 9)) := by decide

/-- Opcode 6, m0 = 2, m1 = 1 (DEC21). -/
theorem test_decode_jumpIfZero :
    decode [1206, 8, 9] = .instr (.jumpIfZero (rel 8) (imm 9)) := by decide

/-- Opcode 7, m0 = 1, m1 = 1, m2 = 2 (DEC13). -/
theorem test_decode_lessThan :
    decode [21107, 1, 2, 3] = .instr (.lessThan (imm 1) (imm 2) (rel 3)) := by decide

/-- Opcode 8, m0 = 1, m1 = 0, m2 = 1 (DEC28): an immediate write target decodes. -/
theorem test_decode_equals :
    decode [10108, 1, 2, 3] = .instr (.equals (imm 1) (pos 2) (imm 3)) := by decide

/-- Opcode 9, m0 = 2 (DEC19). -/
theorem test_decode_adjustRelativeBase :
    decode [209, -1] = .instr (.adjustRelativeBase (rel (-1))) := by decide

/-- Opcode 99; the digits above are excess (DEC10, DEC56, DEC59). -/
theorem test_decode_halt :
    decode [99] = .instr .halt ∧ decode [1234599] = .instr .halt ∧
      decode [9223372036854775799] = .instr .halt := by decide

/-- DEC29 to DEC41: no opcode. -/
theorem test_decode_unknownOpcode :
    decode [0] = .unknownOpcode ∧ decode [5000] = .unknownOpcode ∧ decode [100] = .unknownOpcode ∧
    decode [10] = .unknownOpcode ∧ decode [98] = .unknownOpcode ∧ decode [12345] = .unknownOpcode ∧
    decode [-1] = .unknownOpcode ∧ decode [-99] = .unknownOpcode ∧ decode [-1002] = .unknownOpcode ∧
    decode [-9223372036854775808] = .unknownOpcode := by decide

/-- DEC42 to DEC47, DEC49: a mode digit above 2. -/
theorem test_decode_invalidParameterMode :
    decode [304] = .invalidParameterMode ∧ decode [904] = .invalidParameterMode ∧
    decode [3001] = .invalidParameterMode ∧ decode [30001] = .invalidParameterMode ∧
    decode [10301] = .invalidParameterMode ∧ decode [31101] = .invalidParameterMode ∧
    decode [9223372036854775807] = .invalidParameterMode := by decide

/-- The encoder writes R78's example word, and the table bridge reads it back. -/
theorem test_encode_and_table :
    encode (.add (pos 100) (imm 1) (pos 100)) = [1001, 100, 1, 100] ∧
      decodeTableWord 64 21107 = some (.lessThan (imm 0) (imm 0) (rel 0)) ∧
      decodeTableWord 64 100 = none := by decide

/-! ## WellFormed: the ill-formed terms are refused -/

theorem test_wellFormed_add : (Instr.add (pos 1) (pos 2) (imm 3)).wellFormed = false := by decide
theorem test_wellFormed_multiply :
    (Instr.multiply (imm 1) (rel 2) (imm 3)).wellFormed = false := by decide
theorem test_wellFormed_input : (Instr.input (imm 5)).wellFormed = false := by decide
theorem test_wellFormed_lessThan :
    (Instr.lessThan (pos 1) (pos 2) (imm 3)).wellFormed = false := by decide
theorem test_wellFormed_equals :
    (Instr.equals (pos 1) (pos 2) (imm 3)).wellFormed = false := by decide
theorem test_wellFormed_accepts :
    (Instr.add (imm 1) (imm 2) (rel 3)).wellFormed = true ∧
      (Instr.output (imm 1)).wellFormed = true ∧ Instr.halt.wellFormed = true := by decide

/-! ## One step of each instruction -/

/-- AR1, OP20. -/
theorem test_add : cellAfter (machine [1, 5, 6, 7, 99, 30, 12] 0 []) 7 = some (.running, 4, 0, 42) ∧
    cellAfter (machine [1, 0, 0, 0, 99] 0 []) 0 = some (.running, 4, 0, 2) := by decide

/-- AR3, AR4. -/
theorem test_add_bounds :
    cellAfter (machine [1101, 9223372036854775806, 1, 5, 99] 0 []) 5
      = some (.running, 4, 0, 9223372036854775807) ∧
    failsWith (machine [1101, 9223372036854775807, 1, 5, 99] 0 [])
      = some ⟨.arithmeticOverflow, 0, 1101, none⟩ := by decide

/-- AR19, AR8. -/
theorem test_multiply :
    cellAfter (machine [1102, 34915192, 34915192, 7, 4, 7, 99, 0] 0 []) 7
      = some (.running, 4, 0, 1219070632396864) ∧
    cellAfter (machine [1002, 4, 3, 4, 33] 0 []) 4 = some (.running, 4, 0, 99) := by decide

/-- AR15, AR16. -/
theorem test_multiply_bounds :
    cellAfter (machine [1102, 4611686018427387904, -2, 5, 99] 0 []) 5
      = some (.running, 4, 0, -9223372036854775808) ∧
    failsWith (machine [1102, -9223372036854775808, -1, 5, 99] 0 [])
      = some ⟨.arithmeticOverflow, 0, 1102, none⟩ := by decide

/-- IO4, IO2. -/
theorem test_input :
    cellAfter (machine [203, -3, 99] 10 [-9223372036854775808]) 7
      = some (.running, 2, 10, -9223372036854775808) ∧
    (after (machine [3, 5, 99] 0 [7, 8])).map (·.inCh) = some [8] := by decide

/-- IO3, IO8. -/
theorem test_input_empty :
    after (machine [3, 5, 99] 0 []) = some { machine [3, 5, 99] 0 [] with st := .blocked } ∧
    failsWith (machine [103, 5, 99] 0 []) = some ⟨.invalidWriteTarget, 0, 103, none⟩ := by decide

/-- OP3, OP10. -/
theorem test_output :
    (after (machine [204, -2, 99, 77] 5 [])).map (fun t => (t.ip, t.outCh)) = some (2, [77]) ∧
    failsWith (machine [204, 1, 99] 9223372036854775807 [])
      = some ⟨.arithmeticOverflow, 0, 204, none⟩ := by decide

/-- OP12: the overflow of a relative sum is reported before its sign; OP9. -/
theorem test_output_faults :
    failsWith (machine [204, -1, 99] (-9223372036854775808) [])
      = some ⟨.arithmeticOverflow, 0, 204, none⟩ ∧
    failsWith (machine [204, -3, 99] 2 []) = some ⟨.negativeAddress, 0, 204, some (-1)⟩ := by decide

/-- JP7, JP11. -/
theorem test_jumpIfNotZero :
    (after (machine [2205, 1, 2, 0, 5, 8] 3 [])).map (·.ip) = some 8 ∧
    (after (machine [1105, 0, -1] 0 [])).map (·.ip) = some 3 := by decide

/-- JP10, JP14. -/
theorem test_jumpIfNotZero_faults :
    failsWith (machine [1105, 1, -1] 0 []) = some ⟨.negativeAddress, 0, 1105, some (-1)⟩ ∧
    failsWith (machine [105, 0, -1] 0 []) = some ⟨.negativeAddress, 0, 105, some (-1)⟩ := by decide

/-- JP4, JP13. -/
theorem test_jumpIfZero :
    (after (machine [1106, 0, 7] 0 [])).map (·.ip) = some 7 ∧
    (after (machine [1106, 1, -1] 0 [])).map (·.ip) = some 3 := by decide

/-- JP12. -/
theorem test_jumpIfZero_fault :
    failsWith (machine [1106, 0, -1] 0 []) = some ⟨.negativeAddress, 0, 1106, some (-1)⟩ := by decide

/-- CM5, CM6. -/
theorem test_lessThan :
    cellAfter (machine [1107, -9223372036854775808, 9223372036854775807, 5, 99] 0 []) 5
      = some (.running, 4, 0, 1) ∧
    cellAfter (machine [1107, 9223372036854775807, -9223372036854775808, 5, 99, 7] 0 []) 5
      = some (.running, 4, 0, 0) := by decide

/-- CM3, CM13. -/
theorem test_lessThan_equal :
    cellAfter (machine [1107, 2, 2, 5, 99, 7] 0 []) 5 = some (.running, 4, 0, 0) ∧
    failsWith (machine [11107, 1, 2, 5, 99] 0 []) = some ⟨.invalidWriteTarget, 0, 11107, none⟩ := by
  decide

/-- CM11, CM14. -/
theorem test_equals :
    cellAfter (machine [1108, -5, 5, 5, 99, 7] 0 []) 5 = some (.running, 4, 0, 0) ∧
    cellAfter (machine [21108, 0, 0, 2, 99] 5 []) 7 = some (.running, 4, 5, 1) := by decide

/-- RB4, RB8. -/
theorem test_adjustRelativeBase :
    (after (machine [209, -1, 99, 11] 4 [])).map (fun t => (t.ip, t.rb)) = some (2, 15) ∧
    (after (machine [109, -9223372036854775808, 99] 9223372036854775807 [])).map (·.rb)
      = some (-1) := by decide

/-- RB6. -/
theorem test_adjustRelativeBase_overflow :
    failsWith (machine [109, 1, 99] 9223372036854775807 [])
      = some ⟨.arithmeticOverflow, 0, 109, none⟩ := by decide

/-- JP18: a halt at MAXADDR. -/
theorem test_halt :
    after (machineAt 9223372036854775807 [99])
      = some { machineAt 9223372036854775807 [99] with st := .halted } := by decide

/-! ## The step, load and host -/

/-- HD7 (E7 of the document), PR2, PR5. -/
theorem test_decode_faults :
    failsWith (machine [5000] 0 []) = some ⟨.unknownOpcode, 0, 5000, none⟩ ∧
    failsWith (machine [10301, 0, 0, 0] 0 []) = some ⟨.invalidParameterMode, 0, 10301, none⟩ ∧
    failsWith (machineAt 9223372036854775807 [4])
      = some ⟨.arithmeticOverflow, 9223372036854775807, 4, none⟩ := by decide

/-- JP19, JP20: the successor exactly MAXADDR, and one above. -/
theorem test_successor_bound :
    (after (machineAt 9223372036854775805 [104, 5, 99])).map (·.ip) = some 9223372036854775807 ∧
    failsWith (machineAt 9223372036854775806 [104, 5])
      = some ⟨.arithmeticOverflow, 9223372036854775806, 104, none⟩ := by decide

/-- HD19. -/
theorem test_terminal : step { machine [99] 0 [] with st := .halted } = .fault .noStepHalted ∧
    step { machine [0] 0 [] with st := .failed } = .fault .noStepFailed := ⟨rfl, rfl⟩

/-- A word placed where the next fetch finds it runs first after reset. -/
theorem test_withFetchWord :
    step (State.reset.withFetchWord 64 99)
      = .next { State.reset.withFetchWord 64 99 with st := .halted } := rfl

/-- T4. -/
theorem test_parseText : parseText ['-', '0', ',', '0', '0', '7', ',', '-', '0', '0', '7']
    = some [0, 7, -7] := by decide

/-- D22: the shortest form, one newline. -/
theorem test_renderLine : renderLine (-107) = ['-', '1', '0', '7', '\n'] ∧
    renderLine 0 = ['0', '\n'] := by decide

/-! ## Witnesses: the hypotheses of the statements can be met

Each is named after its obligation. A statement with several clauses has one conjunct for each clause, at a
boundary value. -/

/-- 2^63 - 1 in range, 2^63 and -2^63 - 1 outside; -2^63 = 2^62 * -2 in range, 2^62 * 2 outside, and so is
-2^63 * 2 below. -/
theorem witness_CheckedArithmeticIsExactOrOverflows :
    (9223372036854775806 : Word).toInt + (1 : Word).toInt = 9223372036854775807 ∧
    9223372036854775807 < (9223372036854775807 : Word).toInt + (1 : Word).toInt ∧
    (-9223372036854775808 : Word).toInt + (-1 : Word).toInt < -9223372036854775808 ∧
    (4611686018427387904 : Word).toInt * (-2 : Word).toInt = -9223372036854775808 ∧
    9223372036854775807 < (4611686018427387904 : Word).toInt * (2 : Word).toInt ∧
    (-9223372036854775808 : Word).toInt * (2 : Word).toInt < -9223372036854775808 := by decide

theorem witness_MemoriesThatReadAlikeAreEqual :
    Memory.wf [(3, 7), (9223372036854775807, -1)] = true ∧
      ∀ a, Memory.read [(3, 7), (9223372036854775807, -1)] a
        = Memory.read [(3, 7), (9223372036854775807, -1)] a := ⟨by decide, fun _ => rfl⟩

/-- A word with excess digits and all its operand cells; the halt with none. -/
theorem witness_EncodeOfDecodeDropsOnlyExcessDigits :
    (decode [1103, 5] = .instr (.input (imm 5)) ∧ (Instr.input (imm 5)).length ≤ [1103, (5 : Word)].length) ∧
    (decode [10099] = .instr .halt ∧ Instr.halt.length ≤ [(10099 : Word)].length) := by decide

/-- A word of each verdict, at the edges: 0, 98 and -1; 304 and 30001; 0 to 2 in every digit. -/
theorem witness_DecodeGivesExactlyOneVerdict :
    (decode [0] = .unknownOpcode ∧ decode [98] = .unknownOpcode ∧ decode [-1] = .unknownOpcode) ∧
    (decode [304] = .invalidParameterMode ∧ decode [30001] = .invalidParameterMode) ∧
    decode [22202, 1, 2, 3] = .instr (.multiply (rel 1) (rel 2) (rel 3)) ∧
    decode [99] = .instr .halt := by decide

theorem witness_WellFormedWordsAreTheCanonicalWords :
    (Instr.input (rel 5)).wellFormed = true ∧ (3 : Int) ∈ canonicalWords ∧
      (99 : Int) ∈ canonicalWords := by decide

/-- Position -1 and 0; relative sums above MAXINT, below MININT, exactly MININT, -1, 0, exactly MAXINT. -/
theorem witness_ReadOperandsResolveByMode :
    ((-1 : Word).toInt < 0 ∧ 0 ≤ (0 : Word).toInt) ∧
    maxInt < (machine [] 9223372036854775807 []).rb.toInt + (1 : Word).toInt ∧
    (machine [] (-9223372036854775808) []).rb.toInt + (-1 : Word).toInt < minInt ∧
    (machine [] (-9223372036854775808) []).rb.toInt + (0 : Word).toInt = minInt ∧
    (machine [] 5 []).rb.toInt + (-6 : Word).toInt = -1 ∧
    (machine [] 5 []).rb.toInt + (-5 : Word).toInt = 0 ∧
    (machine [] 9223372036854775806 []).rb.toInt + (1 : Word).toInt = maxInt := by decide

/-- The same values, and a target that resolves. -/
theorem witness_WriteTargetsResolveByMode :
    ((-1 : Word).toInt < 0 ∧ 0 ≤ (0 : Word).toInt) ∧
    maxInt < (machine [] 9223372036854775807 []).rb.toInt + (1 : Word).toInt ∧
    (machine [] (-9223372036854775808) []).rb.toInt + (0 : Word).toInt = minInt ∧
    (machine [] 5 []).rb.toInt + (-6 : Word).toInt = -1 ∧
    (machine [] 5 []).rb.toInt + (-5 : Word).toInt = 0 ∧
    resolveWrite (rel 1) (machine [] 9223372036854775806 []) = .ok 9223372036854775807 := by decide

theorem witness_StepRunsTheDecodedInstruction :
    Active (machine [1002, 4, 3, 4, 33] 0 []) ∧
      decode (fetchCells (machine [1002, 4, 3, 4, 33] 0 [])) =
        .instr (.multiply (pos 4) (imm 3) (pos 4)) := ⟨.inl rfl, by decide⟩

theorem witness_StepRunsTheEncodingStoredAtIp :
    Active (machine [1002, 4, 3, 4, 33] 0 []) ∧
      ∀ k, k < (Instr.multiply (pos 4) (imm 3) (pos 4)).length →
        Memory.read (machine [1002, 4, 3, 4, 33] 0 []).mem ((machine [1002, 4, 3, 4, 33] 0 []).ip + k)
          = cellAt (encode (.multiply (pos 4) (imm 3) (pos 4))) k := ⟨.inl rfl, by decide⟩

/-- Words -1, 0, 10 and 98. -/
theorem witness_UnknownOpcodeIsRaised :
    (Active (machine [-1] 0 []) ∧ (Memory.read (machine [-1] 0 []).mem 0).toInt < 0) ∧
    (Active (machine [100] 0 []) ∧ (Memory.read (machine [100] 0 []).mem 0).toInt.toNat % 100 = 0) ∧
    (Active (machine [10] 0 []) ∧ (Memory.read (machine [10] 0 []).mem 0).toInt.toNat % 100 = 10) ∧
    (Active (machine [98] 0 []) ∧ (Memory.read (machine [98] 0 []).mem 0).toInt.toNat % 100 = 98) :=
  ⟨⟨.inl rfl, by decide⟩, ⟨.inl rfl, by decide⟩, ⟨.inl rfl, by decide⟩, ⟨.inl rfl, by decide⟩⟩

/-- Word 304 (n = 1, k = 0, digit 3) and word 90001 (n = 3, k = 2, digit 9); word 204 (every mode digit
at most 2), whose step fails for another reason. -/
theorem witness_InvalidParameterModeIsRaised :
    (Active (machine [304] 0 []) ∧ 0 ≤ (Memory.read (machine [304] 0 []).mem 0).toInt ∧
      ((Memory.read (machine [304] 0 []).mem 0).toInt.toNat % 100, 1) ∈ opcodeTable ∧
      3 ≤ digit 2 (Memory.read (machine [304] 0 []).mem 0).toInt.toNat) ∧
    (Active (machine [90001] 0 []) ∧ 0 ≤ (Memory.read (machine [90001] 0 []).mem 0).toInt ∧
      ((Memory.read (machine [90001] 0 []).mem 0).toInt.toNat % 100, 3) ∈ opcodeTable ∧
      3 ≤ digit 4 (Memory.read (machine [90001] 0 []).mem 0).toInt.toNat) ∧
    (Active (machine [204, -1] 0 []) ∧ 0 ≤ (Memory.read (machine [204, -1] 0 []).mem 0).toInt ∧
      ((Memory.read (machine [204, -1] 0 []).mem 0).toInt.toNat % 100, 1) ∈ opcodeTable ∧
      (∀ k, k < 1 → digit (k + 2) (Memory.read (machine [204, -1] 0 []).mem 0).toInt.toNat ≤ 2) ∧
      ∃ t, step (machine [204, -1] 0 []) = .next t ∧ t.st = .failed) :=
  ⟨⟨.inl rfl, by decide⟩, ⟨.inl rfl, by decide⟩, .inl rfl, by decide, by decide, by decide, _, rfl, rfl⟩

theorem witness_StepExistsExactlyWhenNotTerminal :
    { machine [99] 0 [] with st := .halted }.st = .halted ∧
    { machine [0] 0 [] with st := .failed }.st = .failed ∧
    (machine [99] 0 []).st ≠ .halted ∧ (machine [99] 0 []).st ≠ .failed := by decide

/-- A decode fault, an execute fault. -/
theorem witness_FaultsArePrecise :
    (∃ t, step (machine [5000] 0 []) = .next t ∧ t.st = .failed) ∧
      ∃ t, step (machine [1101, 2, 3, -1] 0 []) = .next t ∧ t.st = .failed :=
  ⟨⟨_, rfl, rfl⟩, ⟨_, rfl, rfl⟩⟩

/-- A step that records each kind a step can record. -/
theorem witness_EveryErrorHasItsCause :
    (∃ t, step (machine [-1] 0 []) = .next t ∧ t.st = .failed ∧ t.err.kind = .unknownOpcode) ∧
    (∃ t, step (machine [304] 0 []) = .next t ∧ t.st = .failed ∧ t.err.kind = .invalidParameterMode) ∧
    (∃ t, step (machine [103, 5] 0 []) = .next t ∧ t.st = .failed ∧
      t.err.kind = .invalidWriteTarget) ∧
    (∃ t, step (machine [1105, 1, -1] 0 []) = .next t ∧ t.st = .failed ∧
      t.err.kind = .negativeAddress) ∧
    ∃ t, step (machine [109, 1] 9223372036854775807 []) = .next t ∧ t.st = .failed ∧
      t.err.kind = .arithmeticOverflow :=
  ⟨⟨_, rfl, rfl, rfl⟩, ⟨_, rfl, rfl, rfl⟩, ⟨_, rfl, rfl, rfl⟩, ⟨_, rfl, rfl, rfl⟩, _, rfl, rfl, rfl⟩

/-- A Blocked instance at an input: a state R96 speaks of. -/
def blockedMachine (inputs : List Word) : State := { machine [3, 5, 99] 0 inputs with st := .blocked }

theorem blockedMachine_atInput (inputs : List Word) : BlockedAtInput (blockedMachine inputs) :=
  fun _ => ⟨pos 5, 2, 5, show decode (fetchCells (machine [3, 5, 99] 0 [])) = _ by decide, rfl, rfl⟩

/-- A step from Running, to each run state, and from Blocked with and without a value. -/
theorem witness_RunStateTransitionsAreExactly :
    (∃ t, step (machine [99] 0 []) = .next t) ∧ (∃ t, step (machine [3, 5] 0 []) = .next t) ∧
    (∃ t, step (machine [104, 5] 0 []) = .next t) ∧ (∃ t, step (machine [4, -1] 0 []) = .next t) ∧
    (∃ t, step (blockedMachine []) = .next t) ∧ (∃ t, step (blockedMachine [9]) = .next t) ∧
    (blockedMachine []).st = .blocked ∧ BlockedAtInput (blockedMachine []) ∧
    BlockedAtInput (blockedMachine [9]) :=
  ⟨⟨_, rfl⟩, ⟨_, rfl⟩, ⟨_, rfl⟩, ⟨_, rfl⟩, ⟨_, rfl⟩, ⟨_, rfl⟩, rfl, blockedMachine_atInput _, blockedMachine_atInput _⟩

theorem witness_OnlyAdjustRelativeBaseWritesRb :
    ∃ t, step (machine [109, 19, 99] 2000 []) = .next t ∧ t.rb ≠ (machine [109, 19, 99] 2000 []).rb :=
  ⟨_, rfl, by decide⟩

theorem witness_MemoryChangesOnlyAtTheWriteTarget :
    ∃ t, step (machine [1101, 2, 3, 7, 99] 0 []) = .next t ∧
      Memory.read t.mem 7 ≠ Memory.read (machine [1101, 2, 3, 7, 99] 0 []).mem 7 :=
  ⟨_, rfl, by decide⟩

theorem witness_ChannelsChangeOnlyByInputAndOutput :
    (∃ t, step (machine [104, 5, 99] 0 [1]) = .next t ∧ t.outCh = [5]) ∧
      ∃ t, step (machine [3, 5, 99] 0 [7, 8]) = .next t ∧ t.inCh = [8] :=
  ⟨⟨_, rfl, by decide⟩, ⟨_, rfl, by decide⟩⟩

/-- A taken jump, one not taken, a halt, a fault. -/
theorem witness_IpGoesToTargetOrSuccessor :
    (∃ t, step (machine [1105, 1, 7] 0 []) = .next t ∧ t.st = .running ∧ t.ip = 7) ∧
    (∃ t, step (machine [1105, 0, 7] 0 []) = .next t ∧ t.st = .running ∧ t.ip = 3) ∧
    (∃ t, step (machine [99] 0 []) = .next t ∧ t.st ≠ .running) ∧
      ∃ t, step (machine [0] 0 []) = .next t ∧ t.st ≠ .running :=
  ⟨⟨_, rfl, by decide⟩, ⟨_, rfl, by decide⟩, ⟨_, rfl, by decide⟩, ⟨_, rfl, by decide⟩⟩

theorem inv_machine : Inv (machine [1101, 2, 3, 7, 99] 0 []) :=
  ⟨by decide, by decide, fun _ => rfl, fun h => absurd h (by decide)⟩

theorem witness_EveryStepKeepsTheInvariant :
    Inv (machine [1101, 2, 3, 7, 99] 0 []) ∧ ∃ t, step (machine [1101, 2, 3, 7, 99] 0 []) = .next t :=
  ⟨inv_machine, _, rfl⟩

/-- A loaded instance after the host's append and one step. -/
theorem witness_ReachableStatesMeetTheInvariant :
    ∃ t, step (feed 42 (createFromText ['3', ',', '5'] [])) = .next t ∧ t.ip = 2 ∧ Reachable t :=
  ⟨_, rfl, rfl, .stepped (.fed 42 (.created ['3', ',', '5'] [])) rfl⟩

/-- A reachable Blocked instance. -/
theorem witness_ReachableBlockedStatesStandAtAnInput :
    ∃ t, Reachable t ∧ t.st = .blocked :=
  ⟨_, .stepped (.created ['3', ',', '5'] []) rfl, rfl⟩

theorem witness_BlockedInstanceHoldsUntilAValueArrives :
    (blockedMachine []).st = .blocked ∧ BlockedAtInput (blockedMachine []) ∧
      (blockedMachine []).inCh = [] ∧ BlockedAtInput (blockedMachine [9]) ∧
      (blockedMachine [9]).inCh = 9 :: [] :=
  ⟨rfl, blockedMachine_atInput _, rfl, blockedMachine_atInput _, rfl⟩

/-! ### The instructions -/

/-- ip + 4 exactly MAXADDR; a sum exactly MAXINT, one above, one below MININT. -/
theorem witness_AddStoresTheExactSum :
    let s := machineAt 9223372036854775803 [1101]
    s.ip + 4 = maxAddr ∧ resolveRead (imm 9223372036854775806) s = .ok 9223372036854775806 ∧
    resolveRead (imm 1) s = .ok 1 ∧ resolveWrite (pos 0) s = .ok 0 ∧
    (9223372036854775807 : Word).toInt = (9223372036854775806 : Word).toInt + (1 : Word).toInt ∧
    maxInt < (9223372036854775807 : Word).toInt + (1 : Word).toInt ∧
    (-9223372036854775808 : Word).toInt + (-1 : Word).toInt < minInt := by decide

/-- A product exactly MININT, one above MAXINT, one below MININT. -/
theorem witness_MultiplyStoresTheExactProduct :
    let s := machineAt 9223372036854775803 [1102]
    s.ip + 4 = maxAddr ∧ resolveRead (imm 4611686018427387904) s = .ok 4611686018427387904 ∧
    resolveRead (imm (-2)) s = .ok (-2) ∧ resolveWrite (pos 0) s = .ok 0 ∧
    (-9223372036854775808 : Word).toInt = (4611686018427387904 : Word).toInt * (-2 : Word).toInt ∧
    maxInt < (4611686018427387904 : Word).toInt * (2 : Word).toInt ∧
    (4611686018427387904 : Word).toInt * (-4 : Word).toInt < minInt := by decide

/-- Both results: 2 < 2 is false, MININT < MAXINT is true. -/
theorem witness_LessThanStoresOneOrZero :
    let s := machine [7, 5, 6, 0, 99, 2, 2] 0 []
    s.ip + 4 ≤ maxAddr ∧ resolveRead (pos 5) s = .ok 2 ∧ resolveRead (pos 6) s = .ok 2 ∧
    resolveRead (imm (-9223372036854775808)) s = .ok (-9223372036854775808) ∧
    resolveRead (imm 9223372036854775807) s = .ok 9223372036854775807 ∧
    resolveWrite (pos 0) s = .ok 0 := by decide

theorem witness_EqualsStoresOneOrZero :
    let s := machine [1008, 5, 6, 0, 99, 2] 0 []
    s.ip + 4 ≤ maxAddr ∧ resolveRead (pos 5) s = .ok 2 ∧ resolveRead (imm 2) s = .ok 2 ∧
    resolveRead (imm (-2)) s = .ok (-2) ∧ resolveWrite (rel 7) s = .ok 7 := by decide

theorem witness_InputTakesTheOldestValueOrHolds :
    (machineAt 9223372036854775805 [3, 5]).ip + 2 = maxAddr ∧
    resolveWrite (pos 5) (machineAt 9223372036854775805 [3, 5]) = .ok 5 ∧
    (machineAt 9223372036854775805 [3, 5]).inCh = [] ∧
    (machine [3, 5] 0 [7, 8]).ip + 2 ≤ maxAddr ∧
    resolveWrite (pos 5) (machine [3, 5] 0 [7, 8]) = .ok 5 ∧
    (machine [3, 5] 0 [7, 8]).inCh = 7 :: [8] := by decide

theorem witness_OutputAppendsTheValue :
    (machineAt 9223372036854775805 [104, 5]).ip + 2 = maxAddr ∧
    resolveRead (imm 5) (machineAt 9223372036854775805 [104, 5]) = .ok 5 := by decide

/-- Taken to 0, taken to a negative target, not taken. -/
theorem witness_JumpIfNotZeroGoesToItsTarget :
    let s := machineAt 9223372036854775804 [1105]
    s.ip + 3 = maxAddr ∧ resolveRead (imm (-1)) s = .ok (-1) ∧ resolveRead (imm 0) s = .ok 0 ∧
    (-1 : Word) ≠ 0 ∧ 0 ≤ (0 : Word).toInt ∧ (-1 : Word).toInt < 0 := by decide

theorem witness_JumpIfZeroGoesToItsTarget :
    let s := machineAt 9223372036854775804 [1106]
    s.ip + 3 = maxAddr ∧ resolveRead (imm 0) s = .ok 0 ∧ resolveRead (imm (-1)) s = .ok (-1) ∧
    0 ≤ (0 : Word).toInt ∧ (-1 : Word).toInt < 0 ∧ (-1 : Word) ≠ 0 := by decide

/-- A sum exactly MAXINT, one above, one below MININT. -/
theorem witness_AdjustRelativeBaseAddsTheOperand :
    let s := machine [109, 1] 9223372036854775806 []
    s.ip + 2 ≤ maxAddr ∧ resolveRead (imm 1) s = .ok 1 ∧ resolveRead (imm 2) s = .ok 2 ∧
    (9223372036854775807 : Word).toInt = s.rb.toInt + (1 : Word).toInt ∧
    maxInt < s.rb.toInt + (2 : Word).toInt ∧
    (machine [109, -1] (-9223372036854775808) []).rb.toInt + (-1 : Word).toInt < minInt := by decide

/-- The least `ip` that overflows, for each length; `.halt` is the only instruction left out. -/
theorem witness_SuccessorAboveMaxaddrRaises :
    Instr.add (pos 0) (pos 0) (pos 0) ≠ .halt ∧
    maxAddr < (machineAt 9223372036854775804 [1]).ip + (Instr.add (pos 0) (pos 0) (pos 0)).length ∧
    maxAddr < (machineAt 9223372036854775805 [5]).ip + (Instr.jumpIfNotZero (pos 0) (pos 0)).length ∧
    maxAddr < (machineAt 9223372036854775806 [4]).ip + (Instr.output (pos 0)).length := by decide

/-- Each operand of each format the first to fault. -/
theorem witness_FirstOperandFaultIsRaised :
    let s := machine [1, 0, 0, 0] 0 []
    s.ip + 4 ≤ maxAddr ∧ s.ip + 3 ≤ maxAddr ∧ s.ip + 2 ≤ maxAddr ∧
    Instr.add ∈ threeOperand ∧ Instr.jumpIfZero ∈ twoOperand ∧
    resolveRead (pos (-1)) s = .error (.negativeAddress (-1)) ∧ resolveRead (imm 3) s = .ok 3 ∧
    resolveRead (imm 4) s = .ok 4 ∧ resolveWrite (pos (-1)) s = .error (.negativeAddress (-1)) ∧
    resolveWrite (imm 0) s = .error .invalidWriteTarget :=
  ⟨by decide, by decide, by decide, by simp [threeOperand], by simp [twoOperand], by decide, by decide,
    by decide, by decide, by decide⟩

/-- Both reads good before the immediate target; an input with and without a value; a failing output, and a
failing add with a position target. -/
theorem witness_ImmediateWriteTargetRaises :
    (Instr.equals ∈ threeOperand ∧ (machine [11108, 1, 2, 5] 0 []).ip + 4 ≤ maxAddr ∧
      resolveRead (imm 1) (machine [11108, 1, 2, 5] 0 []) = .ok 1) ∧
    (machine [103, 5] 0 []).ip + 2 ≤ maxAddr ∧ (machine [103, 5] 0 [42]).ip + 2 ≤ maxAddr ∧
    ((∀ d, (Instr.output (pos (-1))).writeTarget = some d → d.mode ≠ .immediate) ∧
      ∃ t, exec (.output (pos (-1))) (machine [4, -1] 0 []) = .next t ∧ t.st = .failed) ∧
    (∀ d, (Instr.add (imm 1) (imm 2) (pos (-1))).writeTarget = some d → d.mode ≠ .immediate) ∧
    ∃ t, exec (.add (imm 1) (imm 2) (pos (-1))) (machine [] 0 []) = .next t ∧ t.st = .failed :=
  ⟨⟨by simp [threeOperand], by decide, by decide⟩, by decide, by decide,
    ⟨fun _ h => (nomatch h), _, rfl, rfl⟩, fun _ h => (by cases h; decide), _, rfl, rfl⟩

/-- A store, and a target that resolves to no address. -/
theorem witness_ThreeOperandInstructionsFrame :
    Instr.lessThan ∈ threeOperand ∧
    (∃ t, exec (.lessThan (imm 1) (imm 2) (pos 5)) (machine [] 0 []) = .next t ∧ t.st ≠ .failed) ∧
    resolveWrite (pos 5) (machine [] 0 []) = .ok 5 ∧
    (∃ t, exec (.lessThan (imm 1) (imm 2) (imm 5)) (machine [] 0 []) = .next t) ∧
    ∀ p, resolveWrite (imm 5) (machine [] 0 []) ≠ .ok p :=
  ⟨by simp [threeOperand], ⟨_, rfl, by decide⟩, rfl, ⟨_, rfl⟩, fun _ h => nomatch h⟩

theorem witness_InputFrame :
    (∃ t, exec (.input (pos 5)) (machine [] 0 [7, 8]) = .next t ∧ t.st ≠ .failed) ∧
    resolveWrite (pos 5) (machine [] 0 [7, 8]) = .ok 5 ∧
    (∃ t, exec (.input (pos 5)) (machine [] 0 []) = .next t) ∧ (machine [] 0 []).inCh = [] ∧
    (∃ t, exec (.input (imm 5)) (machine [] 0 [7]) = .next t) ∧
    ∀ p, resolveWrite (imm 5) (machine [] 0 [7]) ≠ .ok p :=
  ⟨⟨_, rfl, by decide⟩, rfl, ⟨_, rfl⟩, rfl, ⟨_, rfl⟩, fun _ h => nomatch h⟩

/-- An output, an adjust-relative-base, a jump, a halt. -/
theorem witness_NonStoringInstructionsFrame :
    (∃ t, exec (.output (imm 5)) (machine [] 0 []) = .next t ∧ t.st ≠ .failed) ∧
    (∃ t, exec (.adjustRelativeBase (imm 5)) (machine [] 0 []) = .next t ∧ t.st ≠ .failed) ∧
    (∃ t, exec (.jumpIfZero (imm 0) (imm 9)) (machine [] 0 []) = .next t ∧ t.st ≠ .failed) ∧
    (∃ t, exec .halt (machine [] 0 []) = .next t ∧ t.st ≠ .failed) ∧
    (Instr.output (imm 5)).writeTarget = none ∧ Instr.halt.writeTarget = none ∧
    (∀ a, Instr.halt ≠ .output a) ∧ ∀ a, Instr.output (imm 5) ≠ .adjustRelativeBase a :=
  ⟨⟨_, rfl, by decide⟩, ⟨_, rfl, by decide⟩, ⟨_, rfl, by decide⟩, ⟨_, rfl, by decide⟩, rfl, rfl,
    fun _ h => (by cases h), fun _ h => (by cases h)⟩

/-- An add that writes the cell after itself, and IO6. -/
theorem witness_TheNextFetchSeesTheWrite :
    (Instr.add ∈ threeOperand ∧ ∃ t, exec (.add (imm 98) (imm 1) (pos 4)) (machine [1101, 98, 1, 4] 0 [])
      = .next t ∧ t.st = .running ∧
        t.mem = Memory.write (machine [1101, 98, 1, 4] 0 []).mem
          ((machine [1101, 98, 1, 4] 0 []).ip + 4) 99) ∧
    ((machine [3, 2, 0] 0 [99]).inCh = 99 :: [] ∧ (machine [3, 2, 0] 0 [99]).ip + 2 ≤ maxAddr ∧
      resolveWrite (pos 2) (machine [3, 2, 0] 0 [99]) = .ok ((machine [3, 2, 0] 0 [99]).ip + 2)) :=
  ⟨⟨by simp [threeOperand], _, rfl, rfl, by decide⟩, by decide⟩

/-! ### Text, host and network -/

theorem witness_CreatedInstanceHoldsTheProgram :
    ([1, 9, 10, 3, 2, 3, 11, 0, 99, 30, 40, 50] : List Word).length ≤ maxAddr + 1 := by decide

theorem witness_TextGrammarIsExactlyTheSpecs :
    parseText [' ', ' ', '1', ',', '-', '2', '\n'] = some [1, -2] := by decide

theorem witness_WrittenTextParsesBack : ([-9223372036854775808, 0] : List Word) ≠ [] := by decide

theorem witness_MalformedTextGivesAFailedInstance : parseText ['1', ',', 'x', ',', '3'] = none := by
  decide

theorem witness_StepCommutesWithFeed :
    ∃ t, step (machine [3, 5, 99] 0 [7]) = .next t ∧ t.st ≠ .blocked := ⟨_, rfl, by decide⟩

/-- A chain of two instances: the first outputs 5, the second inputs. -/
def chain : Network :=
  ⟨[machine [104, 5, 99] 0 [], machine [3, 9, 99] 0 [7]], [some 1, none], [false, false]⟩

theorem chain_reader_zero : chain.reader 0 = some 1 := rfl

theorem chain_reader (i j : Nat) (h : chain.reader i = some j) : i = 0 ∧ j = 1 := by
  rcases i with _ | _ | i
  · exact ⟨rfl, (Option.some.inj h).symm⟩
  · cases h
  · cases h

theorem chain_wellWired : chain.WellWired := by
  refine ⟨rfl, rfl, fun i j h => ?_, fun i k j h h' => ?_, fun i j s h hs => ?_⟩
  · obtain ⟨-, rfl⟩ := chain_reader i j h
    decide
  · rw [(chain_reader i j h).1, (chain_reader k j h').1]
  · obtain ⟨rfl, -⟩ := chain_reader i j h
    cases hs
    rfl

theorem witness_LinkedOutputArrivesAtTheReader :
    chain.WellWired ∧ (0 : Nat) ≠ 1 ∧ chain.reader 0 = some 1 ∧
    chain.cores[0]? = some (machine [104, 5, 99] 0 []) ∧
    chain.cores[1]? = some (machine [3, 9, 99] 0 [7]) ∧
    mayStep (machine [104, 5, 99] 0 []) = true ∧ chain.isStopped 0 = false ∧
    decode (fetchCells (machine [104, 5, 99] 0 [])) = .instr (.output (imm 5)) ∧
    (machine [104, 5, 99] 0 []).ip + 2 ≤ maxAddr ∧
    resolveRead (imm 5) (machine [104, 5, 99] 0 []) = .ok 5 :=
  ⟨chain_wellWired, by decide, rfl, rfl, rfl, rfl, rfl, rfl, by decide, rfl⟩

/-- The reader of the stepped instance; and, of the second's step, the first, which reads no link. -/
theorem witness_AStepReachesOthersOnlyThroughItsChannel :
    (∃ n', chain.stepCore 0 = some n') ∧ (∃ n', chain.stepCore 1 = some n') ∧ (1 : Nat) ≠ 0 ∧
    chain.cores[1]? = some (machine [3, 9, 99] 0 [7]) ∧ chain.reader 1 ≠ some 0 :=
  ⟨⟨_, rfl⟩, ⟨_, rfl⟩, by decide, rfl, by decide⟩

/-- The links of a chain of two are legal, and the second's seed is on the channel between them; a step and a
host move of a wired network. -/
theorem witness_EveryNetworkStepKeepsTheWiring :
    ([some 1, none] : List (Option Nat)).length
      = ([(['9', '9'], []), (['3', ',', '5'], [7])] : List (List Char × List Word)).length ∧
    (∀ i j : Nat, chain.link[i]? = some (some j) → j < 2) ∧
    (∀ i k j : Nat, chain.link[i]? = some (some j) → chain.link[k]? = some (some j) → i = k) ∧
    chain.WellWired ∧ (∃ n', chain.act (.step 0) = some n') ∧
    ∃ n', chain.act (.host (.feed 0 9)) = some n' := by
  refine ⟨rfl, fun i j h => ?_, fun i k j h h' => ?_, chain_wellWired, ⟨_, rfl⟩, _, rfl⟩
  · exact chain_wellWired.2.2.1 i j (by rw [Network.reader, h]; rfl)
  · exact chain_wellWired.2.2.2.1 i k j (by rw [Network.reader, h]; rfl)
      (by rw [Network.reader, h']; rfl)

/-- A halted instance with a value left in `IN` and one in `OUT`. -/
def ended : State := { machine [99] 0 [7] with st := .halted, outCh := [5] }

/-- The host feeds the head of the chain but not its second; it drains and collects from an instance alone. -/
theorem witness_HostMovesNeedTheirRoles :
    (chain.act (.host (.feed 0 9))).isSome = true ∧ chain.act (.host (.feed 1 9)) = none ∧
    chain.hostDrain 0 = none ∧
    (Network.hostDrain ⟨[ended], [none], [false]⟩ 0).map (·.1) = some 5 ∧
    (Network.hostCollect ⟨[ended], [none], [false]⟩ 0).map (·.1) = some 7 ∧
    chain.act (.host (.stop 1)) = some { chain with stopped := [false, true] } := by decide

/-- A Failed instance beside a Running one, which a step would otherwise change (R188). -/
theorem witness_AFailureStopsTheWholeRun :
    let n : Network := ⟨[raise .unknownOpcode (machine [0] 0 []), machine [104, 5] 0 []], [none, none],
      [false, false]⟩
    n.cores[0]? = some (raise .unknownOpcode (machine [0] 0 [])) ∧
    (raise .unknownOpcode (machine [0] 0 [])).st = .failed ∧
    mayStep (machine [104, 5] 0 []) = true := by decide

/-- Two instances waiting for each other, with a step pending and no host move. -/
theorem witness_DeadlockIsAStuckState :
    let n : Network := ⟨[blockedMachine [], blockedMachine []], [some 1, some 0], [false, false]⟩
    n.cores ≠ [] ∧ n.deadlocked [.step 0, .step 1] = true ∧ n.reader 0 = some 1 ∧ n.reader 1 = some 0 := by
  decide

/-- An instance that waits on a host with an append still to make is not deadlocked (R187). -/
theorem test_waiting_on_host :
    Network.deadlocked ⟨[blockedMachine []], [none], [false]⟩ [.host (.feed 0 1)] = false := by decide

/-- R188, R189: a failure, a completion, and a run that goes on are reported apart. -/
theorem test_report :
    Network.report ⟨[machine [99] 0 [], raise .unknownOpcode (machine [0] 0 [])], [none, none],
      [false, false]⟩ = .failed [(1, ⟨.unknownOpcode, 0, 0, none⟩)] ∧
    Network.report ⟨[ended], [none], [false]⟩ = .completed ∧ chain.report = .going := by decide

/-- The output of the first and the input of the second, on the channel between them. -/
theorem witness_StepsOfTwoInstancesCommute :
    chain.WellWired ∧ (0 : Nat) ≠ 1 ∧
    (∃ m s, chain.stepCore 0 = some m ∧ m.cores[0]? = some s ∧ s.st ≠ .blocked) ∧
    ∃ k t, chain.stepCore 1 = some k ∧ k.cores[1]? = some t ∧ t.st ≠ .blocked :=
  ⟨chain_wellWired, by decide, ⟨_, _, rfl, rfl, by decide⟩, ⟨_, _, rfl, rfl, by decide⟩⟩

end Sys2Proof.Tests
end

section
/-! Proofs about checked arithmetic (spec/00_scope.md R10). -/

namespace Sys2Proof.Machine

/-- The word that `narrow` answers in range is the word of that integer. -/
theorem narrow_exact_of_range {v : Int} (hlo : minInt ≤ v) (hhi : v ≤ maxInt) :
    ∃ r, narrow v = .ok r ∧ r.toInt = v := by
  have hr : (Int64.ofInt v).toInt = v :=
    Int64.toInt_ofInt_of_le hlo (Int.lt_add_one_iff.mpr hhi)
  exact ⟨Int64.ofInt v, (narrow_ok_iff v _).mpr hr, hr⟩

/-- Settles O1: each operation narrows the mathematical result, which is either in range or outside it. -/
theorem checkedArithmeticIsExactOrOverflows : Obligations.CheckedArithmeticIsExactOrOverflows := by
  intro a b
  refine ⟨⟨?sumInRange, ?sumOutside⟩, ?productInRange, ?productOutside⟩
  case sumInRange | productInRange =>
    rintro ⟨hlo, hhi⟩
    exact narrow_exact_of_range hlo hhi
  case sumOutside => exact fun hout => (add64_error_iff a b _).mpr ⟨rfl, hout⟩
  case productOutside => exact fun hout => (mul64_error_iff a b _).mpr ⟨rfl, hout⟩

end Sys2Proof.Machine
end

section
/-! The host's moves on one state (R185, R208), and the Failed state told apart from every other. -/

namespace Sys2Proof.Machine

theorem drain_eq_some_iff (s t : State) (v : Word) :
    drain s = some (v, t) ↔ ∃ vs, s.outCh = v :: vs ∧ t = { s with outCh := vs } := by
  unfold drain
  cases s.outCh <;> simp [eq_comm]

theorem collect_eq_some_iff (s t : State) (v : Word) :
    collect s = some (v, t) ↔
      s.st = .halted ∧ ∃ vs, s.inCh = v :: vs ∧ t = { s with inCh := vs } := by
  unfold collect
  cases s.st <;> cases s.inCh <;> simp [eq_comm]

theorem raise_ne_of_st_ne_failed {e : Trap} {s t : State} (h : t.st ≠ .failed) : raise e s ≠ t := by
  rintro rfl
  exact h (raise_st e s)

end Sys2Proof.Machine
end

section
/-! The absence of an execute error (R90, orders 3 to 7), said as what each check answers: the conditions
under which an instruction completes. -/

namespace Sys2Proof.Machine

theorem forall_ne_error_iff {α : Type} (x : Except Trap α) :
    (∀ e, x ≠ .error e) ↔ ∃ v, x = .ok v := by
  cases x <;> simp

theorem not_outsideInt64_iff (v : Int) : ¬ OutsideInt64 v ↔ ∃ r, narrow v = .ok r := by
  rw [← forall_ne_error_iff]
  simp [narrow_error_iff, OutsideInt64]

/-- No execute error: the successor is in range, every operand resolves, the result is an Int64, and a
taken jump's target is an address. -/
theorem not_executeError_iff (i : Instr) (s : State) :
    ¬ ExecuteError i s ↔
      (i ≠ .halt → s.ip + i.length ≤ maxAddr) ∧
        (∀ o ∈ readOperands i, ∃ v, resolveRead o s = .ok v) ∧
        (∀ d, i.writeTarget = some d → ∃ p, resolveWrite d s = .ok p) ∧
        ¬ ResultOverflows i s ∧ ∀ w, JumpTaken i s w → 0 ≤ w.toInt := by
  simp only [← forall_ne_error_iff]
  simp [ExecuteError]

theorem not_executeError_halt (s : State) : ¬ ExecuteError .halt s := by
  simp [not_executeError_iff, readOperands, Instr.writeTarget, ResultOverflows, JumpTaken]

theorem not_executeError_input (d : Operand) (s : State) :
    ¬ ExecuteError (.input d) s ↔ s.ip + 2 ≤ maxAddr ∧ ∃ p, resolveWrite d s = .ok p := by
  simp [not_executeError_iff, readOperands, Instr.writeTarget, ResultOverflows, JumpTaken,
    Instr.length, Instr.operands]

theorem not_executeError_output (a : Operand) (s : State) :
    ¬ ExecuteError (.output a) s ↔ s.ip + 2 ≤ maxAddr ∧ ∃ v, resolveRead a s = .ok v := by
  simp [not_executeError_iff, readOperands, Instr.writeTarget, ResultOverflows, JumpTaken,
    Instr.length, Instr.operands]

theorem not_executeError_adjustRelativeBase (a : Operand) (s : State) :
    ¬ ExecuteError (.adjustRelativeBase a) s ↔
      s.ip + 2 ≤ maxAddr ∧ ∃ v r, resolveRead a s = .ok v ∧ add64 s.rb v = .ok r := by
  cases ha : resolveRead a s <;>
    simp [not_executeError_iff, readOperands, Instr.writeTarget, ResultOverflows, JumpTaken,
      Instr.length, Instr.operands, ha, not_outsideInt64_iff, add64]

/-- Every check of a three-operand instruction with operation `op` passes (R80, R89). -/
def StoreChecks (op : Word → Word → Except Trap Word) (a b d : Operand) (s : State) : Prop :=
  s.ip + 4 ≤ maxAddr ∧ ∃ v w p r, resolveRead a s = .ok v ∧ resolveRead b s = .ok w ∧
    resolveWrite d s = .ok p ∧ op v w = .ok r

theorem not_executeError_add (a b d : Operand) (s : State) :
    ¬ ExecuteError (.add a b d) s ↔ StoreChecks add64 a b d s := by
  cases ha : resolveRead a s <;> cases hb : resolveRead b s <;>
    simp [not_executeError_iff, readOperands, Instr.writeTarget, ResultOverflows, JumpTaken,
      Instr.length, Instr.operands, StoreChecks, ha, hb, not_outsideInt64_iff, add64]

theorem not_executeError_multiply (a b d : Operand) (s : State) :
    ¬ ExecuteError (.multiply a b d) s ↔ StoreChecks mul64 a b d s := by
  cases ha : resolveRead a s <;> cases hb : resolveRead b s <;>
    simp [not_executeError_iff, readOperands, Instr.writeTarget, ResultOverflows, JumpTaken,
      Instr.length, Instr.operands, StoreChecks, ha, hb, not_outsideInt64_iff, mul64]

theorem not_executeError_lessThan (a b d : Operand) (s : State) :
    ¬ ExecuteError (.lessThan a b d) s ↔
      StoreChecks (fun v w => .ok (lessThanValue v w)) a b d s := by
  simp [not_executeError_iff, readOperands, Instr.writeTarget, ResultOverflows, JumpTaken,
    Instr.length, Instr.operands, StoreChecks, and_assoc]

theorem not_executeError_equals (a b d : Operand) (s : State) :
    ¬ ExecuteError (.equals a b d) s ↔
      StoreChecks (fun v w => .ok (equalsValue v w)) a b d s := by
  simp [not_executeError_iff, readOperands, Instr.writeTarget, ResultOverflows, JumpTaken,
    Instr.length, Instr.operands, StoreChecks, and_assoc]

/-- Every check of a jump with the given test passes, its target an address when it is taken (R122). -/
def JumpChecks (test : Word → Bool) (a t : Operand) (s : State) : Prop :=
  s.ip + 3 ≤ maxAddr ∧ ∃ v w, resolveRead a s = .ok v ∧ resolveRead t s = .ok w ∧
    (test v = true → 0 ≤ w.toInt)

theorem not_executeError_jumpIfNotZero (a t : Operand) (s : State) :
    ¬ ExecuteError (.jumpIfNotZero a t) s ↔ JumpChecks (fun v => !isZero v) a t s := by
  cases ha : resolveRead a s <;> cases ht : resolveRead t s <;>
    simp [not_executeError_iff, readOperands, Instr.writeTarget, ResultOverflows, JumpTaken,
      Instr.length, Instr.operands, JumpChecks, ha, ht, isZero]

theorem not_executeError_jumpIfZero (a t : Operand) (s : State) :
    ¬ ExecuteError (.jumpIfZero a t) s ↔ JumpChecks isZero a t s := by
  cases ha : resolveRead a s <;> cases ht : resolveRead t s <;>
    simp [not_executeError_iff, readOperands, Instr.writeTarget, ResultOverflows, JumpTaken,
      Instr.length, Instr.operands, JumpChecks, ha, ht, isZero]

end Sys2Proof.Machine
end

section
/-! What running an instruction can come to, said once (R11, R26, R80): an error raised in the state before
it, a halt, a hold, or completion. Each format's part turns on the existing `_cases` lemma and on the checks
that an error would have failed. -/

namespace Sys2Proof.Machine

/-- What a completed instruction other than halt leaves, as far as the invariant of R36 speaks of it. -/
structure Completed (s t : State) : Prop where
  st_eq : t.st = .running
  err_eq : t.err = s.err
  ip_le : t.ip ≤ maxAddr
  wf_mem : Memory.wf s.mem = true → Memory.wf t.mem = true

/-- Where `exec i s` can go, each with the condition for it (R26, R96). -/
inductive ExecOutcome (i : Instr) (s : State) : State → Prop where
  | raised (e : Trap) : ExecuteError i s → StepTrap e → ExecOutcome i s (raise e s)
  | halted : i = .halt → ExecOutcome i s (halted s)
  | held (d : Operand) : i = .input d → ¬ ExecuteError i s → s.inCh = [] → ExecOutcome i s (hold s)
  | completed (t : State) : i ≠ .halt → ¬ ExecuteError i s → ((∃ d, i = .input d) → s.inCh ≠ []) →
      Completed s t → ExecOutcome i s t

theorem completed_goto {s t : State} {p : Nat} (hp : p ≤ maxAddr) (herr : t.err = s.err)
    (hmem : t.mem = s.mem) : Completed s (goto p t) :=
  ⟨rfl, herr, hp, fun hwf => by simpa [hmem] using hwf⟩

theorem completed_goto_memWrite {s t : State} {p a : Nat} {v : Word} (hp : p ≤ maxAddr)
    (ha : a ≤ maxAddr) (herr : t.err = s.err) (hmem : t.mem = s.mem) :
    Completed s (goto p (memWrite a v t)) :=
  ⟨rfl, herr, hp, fun hwf => by simpa [hmem] using wf_write s.mem a v hwf ha⟩

/-- An outcome that raised is of an instruction with an execute error, since without one the instruction
has another outcome. -/
theorem raised_outcome {i : Instr} {s : State} {e : Trap} {r : Outcome} (he : StepTrap e)
    (h : r = .next (raise e s)) (hok : ¬ ExecuteError i s → ∃ t, r = .next t ∧ t.st ≠ .failed) :
    ExecOutcome i s (raise e s) := by
  refine .raised e ?_ he
  by_contra hno
  obtain ⟨t, ht, hst⟩ := hok hno
  exact raise_ne_of_st_ne_failed hst (Host.Outcome.next.inj (h.symm.trans ht))

/-! ## Format F3 -/

theorem storeResult_of_storeChecks {op : Word → Word → Except Trap Word} {a b d : Operand} {s : State}
    (h : StoreChecks op a b d s) : ∃ t, storeResult op a b d s = .next t ∧ t.st = .running := by
  obtain ⟨hip, v, w, p, r, ha, hb, hd, hr⟩ := h
  have hn : successor 3 s = .ok (s.ip + 4) := (successor_ok_iff _ _ _).2 ⟨hip, rfl⟩
  exact ⟨goto (s.ip + 4) (memWrite p r s), by simp [storeResult, hn, ha, hb, hd, hr], rfl⟩

theorem storeResult_outcome {op : Word → Word → Except Trap Word} {a b d : Operand} {i : Instr}
    {s t : State} (hchecks : ¬ ExecuteError i s ↔ StoreChecks op a b d s)
    (hop : ∀ v w e, op v w = .error e → StepTrap e) (hhalt : i ≠ .halt)
    (hinput : ∀ d, i ≠ .input d) (h : storeResult op a b d s = .next t) : ExecOutcome i s t := by
  obtain ⟨v, w, p, r, hip, ha, hb, hd, hr, rfl⟩ | ⟨e, he, rfl⟩ := storeResult_cases op a b d s t hop h
  · refine .completed _ hhalt (hchecks.2 ⟨hip, v, w, p, r, ha, hb, hd, hr⟩) ?_ ?_
    · exact fun ⟨d, hd⟩ => absurd hd (hinput d)
    · exact completed_goto_memWrite hip (resolveWrite_le d s p hd) rfl rfl
  · refine raised_outcome he h fun hno => ?_
    obtain ⟨t, ht, hst⟩ := storeResult_of_storeChecks (hchecks.1 hno)
    exact ⟨t, ht, by simp [hst]⟩

/-! ## Format F2 -/

theorem jumpWhen_of_jumpChecks {test : Word → Bool} {a t : Operand} {s : State}
    (h : JumpChecks test a t s) : ∃ u, jumpWhen test a t s = .next u ∧ u.st = .running := by
  obtain ⟨hip, v, w, ha, ht, hw⟩ := h
  have hn : successor 2 s = .ok (s.ip + 3) := (successor_ok_iff _ _ _).2 ⟨hip, rfl⟩
  cases hv : test v with
  | false => exact ⟨goto (s.ip + 3) s, by simp [jumpWhen, jumpTarget, hn, ha, ht, hv], rfl⟩
  | true =>
    have hp : checkAddress w.toInt = .ok w.toInt.toNat :=
      (checkAddress_ok_iff _ _).2 (Int.toNat_of_nonneg (hw hv)).symm
    exact ⟨goto w.toInt.toNat s, by simp [jumpWhen, jumpTarget, hn, ha, ht, hv, hp], rfl⟩

theorem jumpWhen_outcome {test : Word → Bool} {a t : Operand} {i : Instr} {s u : State}
    (hchecks : ¬ ExecuteError i s ↔ JumpChecks test a t s) (hhalt : i ≠ .halt)
    (hinput : ∀ d, i ≠ .input d) (h : jumpWhen test a t s = .next u) : ExecOutcome i s u := by
  obtain ⟨v, w, p, hip, ha, ht, hp, rfl⟩ | ⟨e, he, rfl⟩ := jumpWhen_cases test a t s u h
  · refine .completed _ hhalt (hchecks.2 ⟨hip, v, w, ha, ht, fun hv => ?_⟩) ?_ ?_
    · simp only [hv, true_and, Bool.true_eq_false, false_and, or_false] at hp
      omega
    · exact fun ⟨d, hd⟩ => absurd hd (hinput d)
    · refine completed_goto ?_ rfl rfl
      have := (word_range w).2
      simp only [maxInt, maxAddr] at *
      omega
  · refine raised_outcome he h fun hno => ?_
    obtain ⟨u, hu, hst⟩ := jumpWhen_of_jumpChecks (hchecks.1 hno)
    exact ⟨u, hu, by simp [hst]⟩

/-! ## Formats F1W and F1R -/

theorem execInput_outcome {d : Operand} {s t : State} (h : execInput d s = .next t) :
    ExecOutcome (.input d) s t := by
  obtain ⟨p, x, xs, hip, hd, hin, rfl⟩ | ⟨p, hip, hd, hin, rfl⟩ | ⟨e, he, rfl⟩ :=
    execInput_cases d s t h
  · refine .completed _ nofun ((not_executeError_input d s).2 ⟨hip, p, hd⟩) (by simp [hin]) ?_
    exact completed_goto_memWrite hip (resolveWrite_le d s p hd) rfl rfl
  · exact .held d rfl ((not_executeError_input d s).2 ⟨hip, p, hd⟩) hin
  · refine raised_outcome he h fun hno => ?_
    obtain ⟨hip, p, hd⟩ := (not_executeError_input d s).1 hno
    have hn : successor 1 s = .ok (s.ip + 2) := (successor_ok_iff _ _ _).2 ⟨hip, rfl⟩
    cases hin : s.inCh with
    | nil => exact ⟨hold s, by simp [execInput, hn, hd, hin], by simp⟩
    | cons x xs =>
      exact ⟨goto (s.ip + 2) (memWrite p x (inTake s)), by simp [execInput, hn, hd, hin], by simp⟩

theorem execOutput_outcome {a : Operand} {s t : State} (h : execOutput a s = .next t) :
    ExecOutcome (.output a) s t := by
  obtain ⟨v, hip, ha, rfl⟩ | ⟨e, he, rfl⟩ := execOutput_cases a s t h
  · exact .completed _ nofun ((not_executeError_output a s).2 ⟨hip, v, ha⟩) nofun
      (completed_goto hip rfl rfl)
  · refine raised_outcome he h fun hno => ?_
    obtain ⟨hip, v, ha⟩ := (not_executeError_output a s).1 hno
    have hn : successor 1 s = .ok (s.ip + 2) := (successor_ok_iff _ _ _).2 ⟨hip, rfl⟩
    exact ⟨goto (s.ip + 2) (outPut v s), by simp [execOutput, hn, ha], by simp⟩

theorem execAdjustRelativeBase_outcome {a : Operand} {s t : State}
    (h : execAdjustRelativeBase a s = .next t) : ExecOutcome (.adjustRelativeBase a) s t := by
  obtain ⟨v, r, hip, ha, hr, rfl⟩ | ⟨e, he, rfl⟩ := execAdjustRelativeBase_cases a s t h
  · exact .completed _ nofun ((not_executeError_adjustRelativeBase a s).2 ⟨hip, v, r, ha, hr⟩) nofun
      (completed_goto hip rfl rfl)
  · refine raised_outcome he h fun hno => ?_
    obtain ⟨hip, v, r, ha, hr⟩ := (not_executeError_adjustRelativeBase a s).1 hno
    have hn : successor 1 s = .ok (s.ip + 2) := (successor_ok_iff _ _ _).2 ⟨hip, rfl⟩
    exact ⟨goto (s.ip + 2) (setRb r s), by simp [execAdjustRelativeBase, hn, ha, hr], by simp⟩

/-! ## Every instruction -/

theorem exec_outcome {i : Instr} {s t : State} (h : exec i s = .next t) : ExecOutcome i s t := by
  cases i with
  | add a b d =>
    exact storeResult_outcome (not_executeError_add a b d s) (fun _ _ => stepTrap_narrow _) nofun nofun h
  | multiply a b d =>
    exact storeResult_outcome (not_executeError_multiply a b d s) (fun _ _ => stepTrap_narrow _)
      nofun nofun h
  | input d => exact execInput_outcome h
  | output a => exact execOutput_outcome h
  | jumpIfNotZero a t =>
    exact jumpWhen_outcome (not_executeError_jumpIfNotZero a t s) nofun nofun h
  | jumpIfZero a t => exact jumpWhen_outcome (not_executeError_jumpIfZero a t s) nofun nofun h
  | lessThan a b d =>
    exact storeResult_outcome (not_executeError_lessThan a b d s) nofun nofun nofun h
  | equals a b d => exact storeResult_outcome (not_executeError_equals a b d s) nofun nofun nofun h
  | adjustRelativeBase a => exact execAdjustRelativeBase_outcome h
  | halt =>
    obtain rfl : halted s = t := Host.Outcome.next.inj h
    exact .halted rfl

end Sys2Proof.Machine
end

section
/-! The run state (spec/10_state.md R26; spec/40_cycle_and_operands.md R96). -/

namespace Sys2Proof.Machine

/-- The run state after an instruction tells its outcome apart: one condition for each of the four. -/
theorem ExecOutcome.runState {i : Instr} {s t : State} (h : ExecOutcome i s t) :
    (t.st = .halted ↔ i = .halt) ∧
      (t.st = .blocked ↔ (∃ d, i = .input d) ∧ ¬ ExecuteError i s ∧ s.inCh = []) ∧
      (t.st = .failed ↔ ExecuteError i s) ∧
      (t.st = .running ↔
        i ≠ .halt ∧ ¬ ExecuteError i s ∧ ¬ ((∃ d, i = .input d) ∧ s.inCh = [])) := by
  cases h with
  | raised e hE =>
    have hi : i ≠ .halt := by
      rintro rfl
      exact not_executeError_halt s hE
    simp [hE, hi]
  | halted hi => simp [hi, not_executeError_halt]
  | held d hi hE hin =>
    subst hi
    simp [hE, hin]
  | completed t hi hE hin hc =>
    simpa [hc.st_eq, hi, hE] using hin

/-- R26's condition for Blocked, as the statement writes it. -/
theorem input_checks_iff (i : Instr) (s : State) :
    ((∃ d, i = .input d) ∧ ¬ ExecuteError i s ∧ s.inCh = []) ↔
      ∃ d p, i = .input d ∧ s.ip + 2 ≤ maxAddr ∧ resolveWrite d s = .ok p ∧ s.inCh = [] := by
  constructor
  · rintro ⟨⟨d, rfl⟩, hE, hin⟩
    obtain ⟨hip, p, hp⟩ := (not_executeError_input d s).1 hE
    exact ⟨d, p, rfl, hip, hp, hin⟩
  · rintro ⟨d, p, rfl, hip, hp, hin⟩
    exact ⟨⟨d, rfl⟩, (not_executeError_input d s).2 ⟨hip, p, hp⟩, hin⟩

/-- A Blocked state that meets R96 stands at an input without an execute error. -/
theorem BlockedAtInput.decode_input {s : State} (h : BlockedAtInput s) (hst : s.st = .blocked) :
    ∃ d, decode (fetchCells s) = .instr (.input d) ∧ ¬ ExecuteError (.input d) s := by
  obtain ⟨d, nip, p, hdec, hn, hp⟩ := h hst
  obtain ⟨hip, -⟩ := (successor_ok_iff _ _ _).1 hn
  exact ⟨d, hdec, (not_executeError_input d s).2 ⟨hip, p, hp⟩⟩

/-- Settles O20: a decode error gives Failed; a decoded instruction gives the run state of its outcome, and
the checks R96 gives a Blocked state leave only the hold and the wake. -/
theorem runStateTransitionsAreExactly : Obligations.RunStateTransitionsAreExactly := by
  intro s t h
  obtain ⟨hactive, hcases⟩ := (step_eq_next_iff s t).1 h
  refine ⟨hactive, ?_⟩
  obtain ⟨hdec, rfl⟩ | ⟨hdec, rfl⟩ | ⟨i, hdec, hexec⟩ := hcases
  case inl | inr.inl =>
    have hblocked : s.st = .blocked → ¬ BlockedAtInput s := fun hst hb => by
      obtain ⟨d, hd, -⟩ := hb.decode_input hst
      cases hdec.symm.trans hd
    simpa [hdec] using hblocked
  case inr.inr =>
    obtain ⟨hhalted, hheld, hfailed, hrunning⟩ := (exec_outcome hexec).runState
    simp only [hdec, Decoded.instr.injEq, reduceCtorEq, false_or, exists_eq_left']
    refine ⟨hhalted, hheld.trans (input_checks_iff i s), hfailed, hrunning, fun hst hb => ?_⟩
    obtain ⟨d, hd, hE⟩ := hb.decode_input hst
    obtain rfl : i = .input d := Decoded.instr.inj (hdec.symm.trans hd)
    by_cases hin : s.inCh = []
    · exact .inl ⟨hheld.2 ⟨⟨d, rfl⟩, hE, hin⟩, hin⟩
    · exact .inr ⟨hrunning.2 ⟨nofun, hE, fun hempty => hin hempty.2⟩, hin⟩

end Sys2Proof.Machine
end

section
/-! The invariant of every reachable state (spec/10_state.md R36, R27). -/

namespace Sys2Proof.Machine

/-! ## The error record -/

theorem trapKind_ne_noError (e : Trap) : trapKind e ≠ .noError := by
  cases e <;> exact nofun

theorem errAddrAgrees_raise {e : Trap} (s : State) (he : ∀ a, e = .negativeAddress a → a < 0) :
    ErrAddrAgrees (raise e s).err := by
  cases e with
  | negativeAddress a => exact ⟨fun _ => ⟨a, rfl, he a rfl⟩, fun h => absurd rfl h⟩
  | unknownOpcode | invalidParameterMode | invalidWriteTarget | malformedProgramText
  | arithmeticOverflow => exact ⟨nofun, fun _ => rfl⟩

theorem errorAgrees_of_st_ne_failed {s : State} (hst : s.st ≠ .failed) (herr : s.err = ErrorRecord.empty) :
    ErrorAgrees s :=
  ⟨fun _ => herr, fun h => absurd h hst⟩

theorem errorAgrees_raise {e : Trap} (s : State) (he : ∀ a, e = .negativeAddress a → a < 0) :
    ErrorAgrees (raise e s) :=
  ⟨fun h => absurd rfl h, fun _ => ⟨trapKind_ne_noError e, rfl, rfl, errAddrAgrees_raise s he⟩⟩

/-! ## What keeps the invariant -/

/-- The invariant does not speak of `rb` and of the channels. -/
theorem Inv.congr {s t : State} (h : Inv s) (hip : t.ip = s.ip) (hmem : t.mem = s.mem)
    (hst : t.st = s.st) (herr : t.err = s.err) : Inv t := by
  simpa only [Inv, ErrorAgrees, hip, hmem, hst, herr] using h

theorem Inv.raise {s : State} {e : Trap} (h : Inv s) (he : ∀ a, e = .negativeAddress a → a < 0) :
    Inv (raise e s) := by
  obtain ⟨hip, hwf, -⟩ := h
  exact ⟨hip, hwf, errorAgrees_raise s he⟩

/-- The outcomes of an instruction run where nothing has failed. -/
theorem ExecOutcome.inv {i : Instr} {s t : State} (h : ExecOutcome i s t) (hinv : Inv s)
    (hst : s.st ≠ .failed) : Inv t := by
  have ⟨hip, hwf, herr, _⟩ := hinv
  cases h with
  | raised e _ he => exact hinv.raise he.1
  | halted => exact ⟨hip, hwf, errorAgrees_of_st_ne_failed nofun (herr hst)⟩
  | held => exact ⟨hip, hwf, errorAgrees_of_st_ne_failed nofun (herr hst)⟩
  | completed t _ _ _ hc =>
    refine ⟨hc.ip_le, hc.wf_mem hwf, errorAgrees_of_st_ne_failed ?_ (hc.err_eq.trans (herr hst))⟩
    simp [hc.st_eq]

theorem inv_create (program seeds : List Word) : Inv (create program seeds) :=
  ⟨Nat.zero_le _, wf_loadCells 0 program [] rfl, errorAgrees_of_st_ne_failed nofun rfl⟩

theorem inv_createFromText (text : List Char) (seeds : List Word) : Inv (createFromText text seeds) := by
  unfold createFromText
  split
  · exact inv_create _ seeds
  · exact (inv_create [] seeds).raise nofun

/-! ## The obligations -/

/-- Settles O25: a step either raises or runs an instruction, from a state where nothing has failed. -/
theorem everyStepKeepsTheInvariant : Obligations.EveryStepKeepsTheInvariant := by
  intro s t hinv h
  obtain ⟨hactive, ⟨-, rfl⟩ | ⟨-, rfl⟩ | ⟨i, -, hexec⟩⟩ := (step_eq_next_iff s t).1 h
  · exact hinv.raise nofun
  · exact hinv.raise nofun
  · refine (exec_outcome hexec).inv hinv fun hst => ?_
    simp [hst] at hactive

/-- Settles O26: reset is creation with no program and no seeds. -/
theorem resetMeetsTheInvariant : Obligations.ResetMeetsTheInvariant := inv_create [] []

/-- Settles O27, by induction on how the state is reached: creation meets the invariant, a step keeps it,
and the host's moves touch the channels only. -/
theorem reachableStatesMeetTheInvariant : Obligations.ReachableStatesMeetTheInvariant := by
  intro s h
  induction h with
  | created text seeds => exact inv_createFromText text seeds
  | stepped _ hstep ih => exact everyStepKeepsTheInvariant _ _ ih hstep
  | fed v _ ih => exact ih.congr rfl rfl rfl rfl
  | collected _ hcollect ih =>
    obtain ⟨-, vs, -, rfl⟩ := (collect_eq_some_iff _ _ _).1 hcollect
    exact ih.congr rfl rfl rfl rfl
  | drained _ hdrain ih =>
    obtain ⟨vs, -, rfl⟩ := (drain_eq_some_iff _ _ _).1 hdrain
    exact ih.congr rfl rfl rfl rfl

end Sys2Proof.Machine
end

section
/-! Reads of memory (spec/20_memory.md R42, R43), and that the canonical form is determined by them. -/

namespace Sys2Proof.Machine

theorem read_write (m : Memory) (a b : Nat) (v : Word) :
    Memory.read (Memory.write m a v) b = if b = a then v else Memory.read m b := by
  unfold Memory.write
  split
  next hv => rw [read_erase, hv]
  next hv =>
    rw [read_insert _ _ _ _ (mem_erase m a), read_erase]
    split <;> rfl

@[simp] theorem read_write_same (m : Memory) (a : Nat) (v : Word) :
    Memory.read (Memory.write m a v) a = v := by
  simp [read_write]

theorem read_write_of_ne {a b : Nat} (h : b ≠ a) (m : Memory) (v : Word) :
    Memory.read (Memory.write m a v) b = Memory.read m b := by
  simp [read_write, h]

theorem read_cons_same (a : Nat) (v : Word) (m : Memory) : Memory.read ((a, v) :: m) a = v := by
  simp [Memory.read]

theorem read_cons_of_ne {a b : Nat} (h : b ≠ a) (v : Word) (m : Memory) :
    Memory.read ((a, v) :: m) b = Memory.read m b := by
  simp [Memory.read, h]

/-- The first cell of a canonical memory is the lowest that does not read 0. -/
theorem head_le_of_read_ne_zero {lo a b : Nat} {v : Word} {m : Memory}
    (hm : Memory.wfFrom lo ((a, v) :: m) = true) (hb : Memory.read ((a, v) :: m) b ≠ 0) : a ≤ b := by
  obtain ⟨-, ha, hv, htail⟩ := (wfFrom_cons _ _ _ _).1 hm
  by_contra hlt
  exact hb (read_below _ a b ((wfFrom_cons _ _ _ _).2 ⟨le_rfl, ha, hv, htail⟩) (by omega))

theorem read_head_ne_zero {lo a : Nat} {v : Word} {m : Memory}
    (hm : Memory.wfFrom lo ((a, v) :: m) = true) : Memory.read ((a, v) :: m) a ≠ 0 := by
  obtain ⟨-, -, hv, -⟩ := (wfFrom_cons _ _ _ _).1 hm
  rwa [read_cons_same]

/-- Canonical memories that read alike are equal: they have the same lowest cell, at which both tails read 0. -/
theorem eq_of_read_eq {lo : Nat} {m n : Memory} (hm : Memory.wfFrom lo m = true)
    (hn : Memory.wfFrom lo n = true) (h : ∀ a, Memory.read m a = Memory.read n a) : m = n := by
  induction m generalizing lo n with
  | nil =>
    cases n with
    | nil => rfl
    | cons c n => exact absurd (h c.1).symm (read_head_ne_zero hn)
  | cons c m ih =>
    obtain ⟨a, v⟩ := c
    cases n with
    | nil => exact absurd (h a) (read_head_ne_zero hm)
    | cons c n =>
      obtain ⟨b, u⟩ := c
      obtain rfl : a = b := le_antisymm
        (head_le_of_read_ne_zero hm (h b ▸ read_head_ne_zero hn))
        (head_le_of_read_ne_zero hn (h a ▸ read_head_ne_zero hm))
      obtain rfl : v = u := by simpa only [read_cons_same] using h a
      obtain ⟨-, -, -, hm⟩ := (wfFrom_cons _ _ _ _).1 hm
      obtain ⟨-, -, -, hn⟩ := (wfFrom_cons _ _ _ _).1 hn
      have htail (p : Nat) : Memory.read m p = Memory.read n p := by
        by_cases hp : p = a
        · have hlt : p < a + 1 := by omega
          rw [read_below m _ p hm hlt, read_below n _ p hn hlt]
        · simpa only [read_cons_of_ne hp] using h p
      rw [ih hm hn htail]

/-- Settles O2: the empty list reads 0, and `read_write` is the rest. -/
theorem memoryReadAfterWrite : Obligations.MemoryReadAfterWrite := ⟨read_nil, read_write⟩

/-- Settles O3: the canonical form from address 0. -/
theorem memoriesThatReadAlikeAreEqual : Obligations.MemoriesThatReadAlikeAreEqual :=
  fun _ _ hm hn h => eq_of_read_eq hm hn h

end Sys2Proof.Machine
end

section
/-! What a step writes to memory (spec/20_memory.md R53, R54, R56): at most the one cell that the decoded
instruction's write target resolves to in the state before. -/

namespace Sys2Proof.Machine

/-! ## The one write of an instruction -/

/-- From `s` to `t` memory is unchanged, or one value is written where `target` resolves in `s`. -/
def WritesOnlyAt (target : Option Operand) (s t : State) : Prop :=
  t.mem = s.mem ∨
    ∃ d p v, target = some d ∧ resolveWrite d s = .ok p ∧ t.mem = Memory.write s.mem p v

theorem WritesOnlyAt.of_read_ne {target : Option Operand} {s t : State} (h : WritesOnlyAt target s t)
    {a : Nat} (ha : Memory.read t.mem a ≠ Memory.read s.mem a) :
    ∃ d, target = some d ∧ resolveWrite d s = .ok a := by
  obtain hmem | ⟨d, p, v, htarget, hp, hmem⟩ := h
  · exact absurd (by rw [hmem]) ha
  · obtain rfl : a = p := by
      by_contra hne
      exact ha (by rw [hmem, read_write_of_ne hne])
    exact ⟨d, htarget, hp⟩

theorem storeResult_writesOnlyAt {op : Word → Word → Except Trap Word} {a b d : Operand} {s t : State}
    (hop : ∀ v w e, op v w = .error e → StepTrap e) (h : storeResult op a b d s = .next t) :
    WritesOnlyAt (some d) s t := by
  obtain ⟨_, _, p, r, -, -, -, hp, -, rfl⟩ | ⟨e, -, rfl⟩ := storeResult_cases op a b d s t hop h
  · exact .inr ⟨d, p, r, rfl, hp, rfl⟩
  · exact .inl rfl

theorem execInput_writesOnlyAt {d : Operand} {s t : State} (h : execInput d s = .next t) :
    WritesOnlyAt (some d) s t := by
  obtain ⟨p, x, _, -, hp, -, rfl⟩ | ⟨_, -, -, -, rfl⟩ | ⟨e, -, rfl⟩ := execInput_cases d s t h
  · exact .inr ⟨d, p, x, rfl, hp, rfl⟩
  · exact .inl rfl
  · exact .inl rfl

theorem jumpWhen_mem {test : Word → Bool} {a u : Operand} {s t : State}
    (h : jumpWhen test a u s = .next t) : t.mem = s.mem := by
  obtain ⟨_, _, p, -, -, -, -, rfl⟩ | ⟨e, -, rfl⟩ := jumpWhen_cases test a u s t h <;> rfl

theorem execOutput_mem {a : Operand} {s t : State} (h : execOutput a s = .next t) : t.mem = s.mem := by
  obtain ⟨v, -, -, rfl⟩ | ⟨e, -, rfl⟩ := execOutput_cases a s t h <;> rfl

theorem execAdjustRelativeBase_mem {a : Operand} {s t : State}
    (h : execAdjustRelativeBase a s = .next t) : t.mem = s.mem := by
  obtain ⟨v, r, -, -, -, rfl⟩ | ⟨e, -, rfl⟩ := execAdjustRelativeBase_cases a s t h <;> rfl

/-- Each three-operand instruction is format F3 with its own operation, which raises only what a step may. -/
theorem exec_threeOperand {mk : Operand → Operand → Operand → Instr} (hmk : mk ∈ threeOperand) :
    ∃ op : Word → Word → Except Trap Word, (∀ v w e, op v w = .error e → StepTrap e) ∧
      ∀ a b d s, exec (mk a b d) s = storeResult op a b d s := by
  simp only [threeOperand, List.mem_cons, List.not_mem_nil, or_false] at hmk
  obtain rfl | rfl | rfl | rfl := hmk
  · exact ⟨add64, fun _ _ => stepTrap_narrow _, fun _ _ _ _ => rfl⟩
  · exact ⟨mul64, fun _ _ => stepTrap_narrow _, fun _ _ _ _ => rfl⟩
  · exact ⟨fun v w => .ok (lessThanValue v w), nofun, fun _ _ _ _ => rfl⟩
  · exact ⟨fun v w => .ok (equalsValue v w), nofun, fun _ _ _ _ => rfl⟩

theorem exec_threeOperand_writesOnlyAt {mk : Operand → Operand → Operand → Instr}
    (hmk : mk ∈ threeOperand) {a b d : Operand} {s t : State} (h : exec (mk a b d) s = .next t) :
    WritesOnlyAt (some d) s t := by
  obtain ⟨op, hop, hexec⟩ := exec_threeOperand hmk
  exact storeResult_writesOnlyAt hop ((hexec a b d s).symm.trans h)

theorem exec_writesOnlyAt {i : Instr} {s t : State} (h : exec i s = .next t) :
    WritesOnlyAt i.writeTarget s t := by
  cases i with
  | add | multiply | lessThan | equals =>
    exact exec_threeOperand_writesOnlyAt (by simp [threeOperand]) h
  | input d => exact execInput_writesOnlyAt h
  | output a => exact .inl (execOutput_mem h)
  | jumpIfNotZero a u | jumpIfZero a u => exact .inl (jumpWhen_mem h)
  | adjustRelativeBase a => exact .inl (execAdjustRelativeBase_mem h)
  | halt =>
    obtain rfl : halted s = t := Host.Outcome.next.inj h
    exact .inl rfl

/-- Settles O22: a decode error writes no memory, and a decoded instruction only where its target
resolves. -/
theorem memoryChangesOnlyAtTheWriteTarget : Obligations.MemoryChangesOnlyAtTheWriteTarget := by
  intro s t h a ha
  obtain ⟨-, ⟨-, rfl⟩ | ⟨-, rfl⟩ | ⟨i, hdec, hexec⟩⟩ := (step_eq_next_iff s t).1 h
  · exact absurd rfl ha
  · exact absurd rfl ha
  · obtain ⟨d, htarget, hd⟩ := (exec_writesOnlyAt hexec).of_read_ne ha
    exact ⟨i, d, hdec, htarget, hd⟩

/-! ## The next fetch -/

theorem cellAt_fetchCells_zero (s : State) : cellAt (fetchCells s) 0 = Memory.read s.mem s.ip := rfl

theorem fetch_of_mem_eq_write {m : Memory} {p : Nat} {v : Word} {t : State} (hip : t.ip = p)
    (hmem : t.mem = Memory.write m p v) : cellAt (fetchCells t) 0 = v := by
  rw [cellAt_fetchCells_zero, hmem, hip, read_write_same]

theorem exec_threeOperand_ip {mk : Operand → Operand → Operand → Instr} (hmk : mk ∈ threeOperand)
    {a b d : Operand} {s t : State} (h : exec (mk a b d) s = .next t) (hst : t.st = .running) :
    t.ip = s.ip + 4 := by
  obtain ⟨op, hop, hexec⟩ := exec_threeOperand hmk
  obtain ⟨_, _, _, _, -, -, -, -, -, rfl⟩ | ⟨e, -, rfl⟩ :=
    storeResult_cases op a b d s t hop ((hexec a b d s).symm.trans h)
  · rfl
  · cases hst

theorem exec_input_of_value {d : Operand} {s : State} {x : Word} {xs : List Word} {p : Nat}
    (hin : s.inCh = x :: xs) (hip : s.ip + 2 ≤ maxAddr) (hd : resolveWrite d s = .ok p) :
    exec (.input d) s = .next (goto (s.ip + 2) (memWrite p x (inTake s))) := by
  have hn : successor 1 s = .ok (s.ip + 2) := (successor_ok_iff _ _ _).2 ⟨hip, rfl⟩
  simp [exec, execInput, hn, hd, hin]

/-- Settles O46: `ip` is the successor address, which is the cell written. -/
theorem theNextFetchSeesTheWrite : Obligations.TheNextFetchSeesTheWrite := by
  refine ⟨?threeOperand, ?input⟩
  case threeOperand =>
    intro mk hmk a b d s t r h hst hmem
    exact fetch_of_mem_eq_write (exec_threeOperand_ip hmk h hst) hmem
  case input =>
    intro d s x xs hin hip hd
    exact ⟨_, exec_input_of_value hin hip hd, fetch_of_mem_eq_write rfl rfl⟩

end Sys2Proof.Machine
end

section
/-! What a core of a network sees of the steps of the others (spec/20_memory.md R46, R57). -/

namespace Sys2Proof.Machine

/-- Any core but the one delivered only has the outputs fed to it, and only as the reader. -/
theorem deliver_getElem?_of_ne {n : Network} {i k : Nat} {s t : State} (hi : i < n.cores.length)
    (hk : k ≠ i) (hs : n.cores[k]? = some s) :
    (n.deliver i t).cores[k]? = some (if n.reader i = some k then feedAll t.outCh s else s) := by
  rw [deliver_getElem? n i k t hi, if_neg hk, hs, Option.map_some]

/-- Settles O54: the step delivers a state at `i`, which the others see only as values fed to the reader. -/
theorem aStepReachesOthersOnlyThroughItsChannel :
    Obligations.AStepReachesOthersOnlyThroughItsChannel := by
  intro n n' i k s h hk hs
  obtain ⟨s₀, t, hs₀, -, -, -, rfl⟩ := (stepCore_eq_some_iff n n' i).1 h
  obtain ⟨hi, -⟩ := List.getElem?_eq_some_iff.1 hs₀
  refine ⟨deliver_link n i t, deliver_stopped n i t, ?_⟩
  rw [deliver_getElem?_of_ne hi hk hs]
  by_cases hr : n.reader i = some k
  · exact ⟨t.outCh, by rw [if_pos hr, feedAll], fun hno => absurd hr hno⟩
  · exact ⟨[], by rw [if_neg hr, List.append_nil], fun _ => rfl⟩

end Sys2Proof.Machine
end

section
/-! The opcode table of R62 as a function, and what each verdict of the decoder turns on (R61, R66, R75). -/

namespace Sys2Proof.Machine

/-! ## The opcode table -/

/-- The operand count of an opcode, second column of R62's table. -/
def operandCount : Opcode → Nat
  | .add | .multiply | .lessThan | .equals => 3
  | .jumpIfNotZero | .jumpIfZero => 2
  | .input | .output | .adjustRelativeBase => 1
  | .halt => 0

theorem operands_length (i : Instr) : i.operands.length = operandCount i.opcode := by
  cases i <;> rfl

theorem mem_opcodeTable_iff (c n : Nat) :
    (c, n) ∈ opcodeTable ↔ ∃ op, opcodeOf c = some op ∧ operandCount op = n := by
  constructor
  · have table : ∀ p ∈ opcodeTable, (opcodeOf p.1).map operandCount = some p.2 := by decide
    exact fun h => Option.map_eq_some_iff.1 (table (c, n) h)
  · rintro ⟨op, hop, rfl⟩
    rw [opcodeOf_eq_some c op hop]
    cases op <;> decide

theorem opcodeOf_eq_some_iff (c : Nat) (op : Opcode) : opcodeOf c = some op ↔ c = opcodeCode op :=
  ⟨opcodeOf_eq_some c op, fun h => h ▸ opcodeOf_opcodeCode op⟩

theorem opcodeOf_eq_none_iff (c : Nat) : opcodeOf c = none ↔ ∀ n, (c, n) ∉ opcodeTable := by
  cases h : opcodeOf c <;> simp [mem_opcodeTable_iff, h]

theorem mem_opcodeTable_unique {c n m : Nat} (hn : (c, n) ∈ opcodeTable)
    (hm : (c, m) ∈ opcodeTable) : n = m := by
  obtain ⟨op, hop, rfl⟩ := (mem_opcodeTable_iff c n).1 hn
  obtain ⟨op', hop', rfl⟩ := (mem_opcodeTable_iff c m).1 hm
  rw [Option.some.inj (hop.symm.trans hop')]

/-! ## Operands -/

theorem operandAt_eq_some_iff (k w : Nat) (cells : List Word) (o : Operand) :
    operandAt k w cells = some o ↔
      modeDigit o.mode = digit (k + 2) w ∧ o.cell = cellAt cells (k + 1) := by
  obtain ⟨m, c⟩ := o
  unfold operandAt
  constructor
  · intro h
    split at h
    · rename_i m' hm
      obtain ⟨rfl, rfl⟩ := Operand.mk.inj (Option.some.inj h)
      exact ⟨(modeOf_eq_some _ _ hm).symm, rfl⟩
    · cases h
  · rintro ⟨hm, rfl⟩
    dsimp only at hm
    rw [← hm, modeOf_modeDigit]

theorem operandAt_eq_none_iff (k w : Nat) (cells : List Word) :
    operandAt k w cells = none ↔ 2 < digit (k + 2) w := by
  rw [← modeOf_eq_none_iff]
  unfold operandAt
  split <;> simp_all

/-- The word `w` and the cells hold exactly these operands, operand 0 first. -/
def HoldsOperands (w : Nat) (cells : List Word) (os : List Operand) : Prop :=
  ∀ k o, os[k]? = some o → operandAt k w cells = some o

theorem forall_getElem?_cons {α : Type} (a : α) (l : List α) (P : Nat → α → Prop) :
    (∀ k x, (a :: l)[k]? = some x → P k x) ↔ P 0 a ∧ ∀ k x, l[k]? = some x → P (k + 1) x := by
  rw [← Nat.and_forall_add_one]
  simp

theorem holdsOperands_nil (w : Nat) (cells : List Word) : HoldsOperands w cells [] := by
  simp [HoldsOperands]

theorem holdsOperands_one (w : Nat) (cells : List Word) (a : Operand) :
    HoldsOperands w cells [a] ↔ operandAt 0 w cells = some a := by
  simp [HoldsOperands, forall_getElem?_cons]

theorem holdsOperands_two (w : Nat) (cells : List Word) (a b : Operand) :
    HoldsOperands w cells [a, b] ↔
      operandAt 0 w cells = some a ∧ operandAt 1 w cells = some b := by
  simp [HoldsOperands, forall_getElem?_cons]

theorem holdsOperands_three (w : Nat) (cells : List Word) (a b d : Operand) :
    HoldsOperands w cells [a, b, d] ↔
      operandAt 0 w cells = some a ∧ operandAt 1 w cells = some b ∧
        operandAt 2 w cells = some d := by
  simp [HoldsOperands, forall_getElem?_cons]

theorem HoldsOperands.operandAt_ne_none {w k : Nat} {cells : List Word} {os : List Operand}
    (h : HoldsOperands w cells os) (hk : k < os.length) : operandAt k w cells ≠ none := by
  simp [h k os[k] (List.getElem?_eq_getElem hk)]

/-! ## The verdict on a word of a legal opcode -/

/-- What the decoder may answer on a word with opcode `op` (R72, R75): InvalidParameterMode when an
operand of its own has no mode, else an instruction of that opcode with the operands held. -/
def OperandsVerdict (op : Opcode) (w : Nat) (cells : List Word) (r : Decoded) : Prop :=
  (r = .invalidParameterMode ∧ ∃ k, k < operandCount op ∧ operandAt k w cells = none) ∨
    ∃ i, r = .instr i ∧ i.opcode = op ∧ HoldsOperands w cells i.operands

theorem decodeOne_verdict (mk : Operand → Instr) (op : Opcode) (w : Nat) (cells : List Word)
    (hcount : operandCount op = 1) (hmk : ∀ a, (mk a).opcode = op ∧ (mk a).operands = [a]) :
    OperandsVerdict op w cells (decodeOne mk w cells) := by
  unfold decodeOne
  cases ha : operandAt 0 w cells with
  | none => exact .inl ⟨rfl, 0, by omega, ha⟩
  | some a =>
    obtain ⟨hop, hos⟩ := hmk a
    exact .inr ⟨mk a, rfl, hop, hos ▸ (holdsOperands_one w cells a).2 ha⟩

theorem decodeTwo_verdict (mk : Operand → Operand → Instr) (op : Opcode) (w : Nat)
    (cells : List Word) (hcount : operandCount op = 2)
    (hmk : ∀ a b, (mk a b).opcode = op ∧ (mk a b).operands = [a, b]) :
    OperandsVerdict op w cells (decodeTwo mk w cells) := by
  unfold decodeTwo
  cases ha : operandAt 0 w cells with
  | none => exact .inl ⟨rfl, 0, by omega, ha⟩
  | some a =>
    cases hb : operandAt 1 w cells with
    | none => exact .inl ⟨rfl, 1, by omega, hb⟩
    | some b =>
      obtain ⟨hop, hos⟩ := hmk a b
      exact .inr ⟨mk a b, rfl, hop, hos ▸ (holdsOperands_two w cells a b).2 ⟨ha, hb⟩⟩

theorem decodeThree_verdict (mk : Operand → Operand → Operand → Instr) (op : Opcode) (w : Nat)
    (cells : List Word) (hcount : operandCount op = 3)
    (hmk : ∀ a b d, (mk a b d).opcode = op ∧ (mk a b d).operands = [a, b, d]) :
    OperandsVerdict op w cells (decodeThree mk w cells) := by
  unfold decodeThree
  cases ha : operandAt 0 w cells with
  | none => exact .inl ⟨rfl, 0, by omega, ha⟩
  | some a =>
    cases hb : operandAt 1 w cells with
    | none => exact .inl ⟨rfl, 1, by omega, hb⟩
    | some b =>
      cases hd : operandAt 2 w cells with
      | none => exact .inl ⟨rfl, 2, by omega, hd⟩
      | some d =>
        obtain ⟨hop, hos⟩ := hmk a b d
        exact .inr ⟨mk a b d, rfl, hop, hos ▸ (holdsOperands_three w cells a b d).2 ⟨ha, hb, hd⟩⟩

theorem decodeWord_verdict {op : Opcode} {w : Nat} (cells : List Word)
    (h : opcodeOf (w % 100) = some op) : OperandsVerdict op w cells (decodeWord w cells) := by
  unfold decodeWord
  rw [h]
  cases op with
  | add | multiply | lessThan | equals =>
    exact decodeThree_verdict _ _ w cells rfl fun _ _ _ => ⟨rfl, rfl⟩
  | jumpIfNotZero | jumpIfZero =>
    exact decodeTwo_verdict _ _ w cells rfl fun _ _ => ⟨rfl, rfl⟩
  | input | output | adjustRelativeBase =>
    exact decodeOne_verdict _ _ w cells rfl fun _ => ⟨rfl, rfl⟩
  | halt => exact .inr ⟨.halt, rfl, rfl, holdsOperands_nil w cells⟩

theorem decodeWord_of_opcodeOf_none {w : Nat} (cells : List Word) (h : opcodeOf (w % 100) = none) :
    decodeWord w cells = .unknownOpcode := by
  unfold decodeWord
  rw [h]

theorem decodeWord_of_holdsOperands {w : Nat} {cells : List Word} (i : Instr)
    (hop : opcodeOf (w % 100) = some i.opcode) (hos : HoldsOperands w cells i.operands) :
    decodeWord w cells = .instr i := by
  cases i with
  | add a b d | multiply a b d | lessThan a b d | equals a b d =>
    obtain ⟨ha, hb, hd⟩ := (holdsOperands_three w cells a b d).1 hos
    simp [decodeWord, decodeThree, hop, Instr.opcode, ha, hb, hd]
  | jumpIfNotZero a t | jumpIfZero a t =>
    obtain ⟨ha, ht⟩ := (holdsOperands_two w cells a t).1 hos
    simp [decodeWord, decodeTwo, hop, Instr.opcode, ha, ht]
  | input a | output a | adjustRelativeBase a =>
    have ha := (holdsOperands_one w cells a).1 hos
    simp [decodeWord, decodeOne, hop, Instr.opcode, ha]
  | halt => simp [decodeWord, hop, Instr.opcode]

/-! ## The three verdicts -/

theorem decodeWord_eq_unknownOpcode_iff (w : Nat) (cells : List Word) :
    decodeWord w cells = .unknownOpcode ↔ opcodeOf (w % 100) = none := by
  refine ⟨fun h => ?_, decodeWord_of_opcodeOf_none cells⟩
  cases hop : opcodeOf (w % 100) with
  | none => rfl
  | some op =>
    obtain ⟨hr, -⟩ | ⟨i, hr, -⟩ := decodeWord_verdict cells hop <;> cases h.symm.trans hr

theorem decodeWord_eq_instr_iff (w : Nat) (cells : List Word) (i : Instr) :
    decodeWord w cells = .instr i ↔
      opcodeOf (w % 100) = some i.opcode ∧ HoldsOperands w cells i.operands := by
  refine ⟨fun h => ?_, fun ⟨hop, hos⟩ => decodeWord_of_holdsOperands i hop hos⟩
  cases hop : opcodeOf (w % 100) with
  | none => cases h.symm.trans (decodeWord_of_opcodeOf_none cells hop)
  | some op =>
    obtain ⟨hr, -⟩ | ⟨i', hr, rfl, hos⟩ := decodeWord_verdict cells hop
    · cases h.symm.trans hr
    · cases h.symm.trans hr
      exact ⟨rfl, hos⟩

theorem decodeWord_eq_invalidParameterMode_iff (w : Nat) (cells : List Word) :
    decodeWord w cells = .invalidParameterMode ↔
      ∃ op k, opcodeOf (w % 100) = some op ∧ k < operandCount op ∧
        operandAt k w cells = none := by
  constructor
  · intro h
    cases hop : opcodeOf (w % 100) with
    | none => cases h.symm.trans (decodeWord_of_opcodeOf_none cells hop)
    | some op =>
      obtain ⟨-, k, hk, hnone⟩ | ⟨i, hr, -⟩ := decodeWord_verdict cells hop
      · exact ⟨op, k, rfl, hk, hnone⟩
      · cases h.symm.trans hr
  · rintro ⟨op, k, hop, hk, hnone⟩
    obtain ⟨hr, -⟩ | ⟨i, -, rfl, hos⟩ := decodeWord_verdict cells hop
    · exact hr
    · exact absurd hnone (hos.operandAt_ne_none (operands_length i ▸ hk))

theorem decode_of_nonneg {cells : List Word} (h : 0 ≤ (cellAt cells 0).toInt) :
    decode cells = decodeWord (cellAt cells 0).toInt.toNat cells := by
  simp [decode, h]

theorem decode_of_neg {cells : List Word} (h : (cellAt cells 0).toInt < 0) :
    decode cells = .unknownOpcode := by
  simp [decode, h]

theorem decode_eq_instr_iff (cells : List Word) (i : Instr) :
    decode cells = .instr i ↔
      0 ≤ (cellAt cells 0).toInt ∧
        (cellAt cells 0).toInt.toNat % 100 = opcodeCode i.opcode ∧
          HoldsOperands (cellAt cells 0).toInt.toNat cells i.operands := by
  rcases lt_or_ge (cellAt cells 0).toInt 0 with hw | hw
  · simp [decode_of_neg hw, hw.not_ge]
  · simp [decode_of_nonneg hw, hw, decodeWord_eq_instr_iff, opcodeOf_eq_some_iff]

theorem decode_eq_unknownOpcode_iff (cells : List Word) :
    decode cells = .unknownOpcode ↔
      (cellAt cells 0).toInt < 0 ∨
        ∀ n, ((cellAt cells 0).toInt.toNat % 100, n) ∉ opcodeTable := by
  rcases lt_or_ge (cellAt cells 0).toInt 0 with hw | hw
  · simp [decode_of_neg hw, hw]
  · simp [decode_of_nonneg hw, hw.not_gt, decodeWord_eq_unknownOpcode_iff, opcodeOf_eq_none_iff]

theorem decode_eq_invalidParameterMode_iff (cells : List Word) :
    decode cells = .invalidParameterMode ↔
      0 ≤ (cellAt cells 0).toInt ∧ ∃ n k, ((cellAt cells 0).toInt.toNat % 100, n) ∈ opcodeTable ∧
        k < n ∧ 2 < digit (k + 2) (cellAt cells 0).toInt.toNat := by
  rcases lt_or_ge (cellAt cells 0).toInt 0 with hw | hw
  · simp [decode_of_neg hw, hw.not_ge]
  · simp only [decode_of_nonneg hw, hw, decodeWord_eq_invalidParameterMode_iff,
      operandAt_eq_none_iff, mem_opcodeTable_iff, true_and]
    constructor
    · rintro ⟨op, k, hop, hk, hd⟩
      exact ⟨_, k, ⟨op, hop, rfl⟩, hk, hd⟩
    · rintro ⟨_, k, ⟨op, hop, rfl⟩, hk, hd⟩
      exact ⟨op, k, hop, hk, hd⟩

theorem exists_decode_eq_instr_iff (cells : List Word) :
    (∃ i, decode cells = .instr i) ↔
      decode cells ≠ .unknownOpcode ∧ decode cells ≠ .invalidParameterMode := by
  cases decode cells <;> simp

end Sys2Proof.Machine
end

section
/-! The statements of spec/30_encoding.md on the decoder and the encoder. -/

namespace Sys2Proof.Machine

/-! ## Encode, then decode -/

theorem headWord_statement (i : Instr) : Laws.HeadWord.Statement i := by
  cases i with
  | add a b d => exact Laws.HeadWord.add a b d
  | multiply a b d => exact Laws.HeadWord.multiply a b d
  | input d => exact Laws.HeadWord.input d
  | output a => exact Laws.HeadWord.output a
  | jumpIfNotZero a t => exact Laws.HeadWord.jumpIfNotZero a t
  | jumpIfZero a t => exact Laws.HeadWord.jumpIfZero a t
  | lessThan a b d => exact Laws.HeadWord.lessThan a b d
  | equals a b d => exact Laws.HeadWord.equals a b d
  | adjustRelativeBase a => exact Laws.HeadWord.adjustRelativeBase a
  | halt => exact Laws.HeadWord.halt

theorem cellAt_encode_append_zero (i : Instr) (rest : List Word) :
    cellAt (encode i ++ rest) 0 = Int64.ofNat (headWord i) := rfl

theorem cellAt_encode_append_succ {i : Instr} {k : Nat} {o : Operand} (rest : List Word)
    (h : i.operands[k]? = some o) : cellAt (encode i ++ rest) (k + 1) = o.cell := by
  have hk : k < (i.operands.map (·.cell)).length := by
    simpa using (List.getElem?_eq_some_iff.1 h).1
  simp [encode, cellAt, List.getElem?_append_left hk, h]

theorem headWord_holdsOperands (i : Instr) (rest : List Word) :
    HoldsOperands (headWord i) (encode i ++ rest) i.operands := by
  obtain ⟨-, hdigit, -⟩ := headWord_statement i
  intro k o ho
  exact (operandAt_eq_some_iff _ _ _ _).2
    ⟨(hdigit k o ho).symm, (cellAt_encode_append_succ rest ho).symm⟩

/-- Settles O4: the canonical word has the opcode and the mode digits of the instruction. -/
theorem decodeOfEncodeIsTheInstruction : Obligations.DecodeOfEncodeIsTheInstruction := by
  intro i rest
  rw [decode_eq_instr_iff, cellAt_encode_append_zero, toInt_headWord, Int.toNat_natCast]
  exact ⟨Int.natCast_nonneg _, headWord_mod i, headWord_holdsOperands i rest⟩

/-! ## Decode, then encode -/

theorem modesPrefix_eq_mod (os : List Operand) (v : Nat)
    (h : ∀ k o, os[k]? = some o → modeDigit o.mode = digit k v) :
    modesPrefix os = v % 10 ^ os.length := by
  induction os generalizing v with
  | nil => simp [modesPrefix, Nat.mod_one]
  | cons o os ih =>
    obtain ⟨hhead, htail⟩ :=
      (forall_getElem?_cons o os fun k o => modeDigit o.mode = digit k v).1 h
    have ih' := ih (v / 10) fun k o' hk => by
      rw [htail k o' hk, digit, digit, Nat.div_div_eq_div_mul, pow_succ']
    rw [modesPrefix, hhead, ih', List.length_cons, pow_succ', Nat.mod_mul, digit, pow_zero,
      Nat.div_one]

theorem ten_pow_add_two (k : Nat) : 10 ^ (k + 2) = 100 * 10 ^ k := by ring

theorem headWord_eq_mod {i : Instr} {w : Nat} (hop : w % 100 = opcodeCode i.opcode)
    (hos : ∀ k o, i.operands[k]? = some o → modeDigit o.mode = digit (k + 2) w) :
    headWord i = w % 10 ^ (i.operands.length + 2) := by
  have hmodes : modesPrefix i.operands = w / 100 % 10 ^ i.operands.length :=
    modesPrefix_eq_mod _ _ fun k o hk => by
      rw [hos k o hk, digit, digit, Nat.div_div_eq_div_mul, ten_pow_add_two]
  rw [headWord, hmodes, ← hop, ten_pow_add_two, Nat.mod_mul]
  omega

theorem operands_map_cell {i : Instr} {cells : List Word} (hlen : i.length ≤ cells.length)
    (hcell : ∀ k o, i.operands[k]? = some o → o.cell = cellAt cells (k + 1)) :
    i.operands.map (·.cell) = (cells.take i.length).tail := by
  unfold Instr.length at hlen ⊢
  refine List.ext_getElem ?_ fun k hk _ => ?_
  · simp only [List.length_map, List.length_tail, List.length_take]
    omega
  · rw [List.length_map] at hk
    have hk' : k + 1 < cells.length := by omega
    simp [hcell k _ (List.getElem?_eq_getElem hk), cellAt, hk']

/-- Settles O5: the word's low digits are the opcode and the modes, and the rest is cut off. -/
theorem encodeOfDecodeDropsOnlyExcessDigits : Obligations.EncodeOfDecodeDropsOnlyExcessDigits := by
  intro cells i hdecode hlen
  obtain ⟨hw, hop, hos⟩ := (decode_eq_instr_iff cells i).1 hdecode
  have hheld := fun k o hk => (operandAt_eq_some_iff _ _ _ _).1 (hos k o hk)
  refine ⟨operands_map_cell hlen fun k o hk => (hheld k o hk).2, ?_⟩
  calc (cellAt (encode i) 0).toInt
      = ((headWord i : Nat) : Int) := toInt_headWord i
    _ = (((cellAt cells 0).toInt.toNat % 10 ^ (i.operands.length + 2) : Nat) : Int) := by
        rw [headWord_eq_mod hop fun k o hk => (hheld k o hk).1]
    _ = (cellAt cells 0).toInt % 10 ^ (i.operands.length + 2) := by
        push_cast [Int.toNat_of_nonneg hw]
        rfl

/-! ## The verdicts -/

/-- Settles O6: an instruction is what is left when the conditions of both faults fail. -/
theorem decodeGivesExactlyOneVerdict : Obligations.DecodeGivesExactlyOneVerdict := by
  intro cells w
  refine ⟨decode_eq_unknownOpcode_iff cells, decode_eq_invalidParameterMode_iff cells, ?_, ?_⟩
  · rw [exists_decode_eq_instr_iff, Ne, Ne, decode_eq_unknownOpcode_iff,
      decode_eq_invalidParameterMode_iff]
    constructor
    · rintro ⟨hknown, hmodes⟩
      push Not at hknown hmodes
      obtain ⟨hw, n, hn⟩ := hknown
      exact ⟨hw, n, hn, fun k hk => hmodes hw n k hn hk⟩
    · rintro ⟨hw, n, hn, hmodes⟩
      refine ⟨fun h => h.elim hw.not_gt fun hno => hno n hn, ?_⟩
      rintro ⟨-, m, k, hm, hk, hd⟩
      exact (hmodes k (mem_opcodeTable_unique hm hn ▸ hk)).not_gt hd
  · intro i hi
    obtain ⟨-, hop, hos⟩ := (decode_eq_instr_iff cells i).1 hi
    refine ⟨hop.symm, ?_, fun k o hk => (operandAt_eq_some_iff _ _ _ _).1 (hos k o hk)⟩
    exact (mem_opcodeTable_iff _ _).2
      ⟨i.opcode, (opcodeOf_eq_some_iff _ _).2 hop, (operands_length i).symm⟩

/-- Settles O7: each word is run through the decoder. -/
theorem wordsOfTheSpecDecode : Obligations.WordsOfTheSpecDecode := by
  unfold Obligations.WordsOfTheSpecDecode
  decide

end Sys2Proof.Machine
end

section
/-! R74's table of the canonical words, row by row: which head words of an opcode it holds. -/

namespace Sys2Proof.Machine

/-- R74's rows for an opcode. -/
def canonicalRow : Opcode → List Int
  | .add => canonicalF3 1
  | .multiply => canonicalF3 2
  | .input => [3, 203]
  | .output => [4, 104, 204]
  | .jumpIfNotZero => [5, 105, 205, 1005, 1105, 1205, 2005, 2105, 2205]
  | .jumpIfZero => [6, 106, 206, 1006, 1106, 1206, 2006, 2106, 2206]
  | .lessThan => canonicalF3 7
  | .equals => canonicalF3 8
  | .adjustRelativeBase => [9, 109, 209]
  | .halt => [99]

theorem canonicalWords_filter (op : Opcode) :
    canonicalWords.filter (fun w : Int => w % 100 = opcodeCode op) = canonicalRow op := by
  cases op <;> decide

theorem headWord_mem_canonicalWords_iff (i : Instr) :
    (headWord i : Int) ∈ canonicalWords ↔ (headWord i : Int) ∈ canonicalRow i.opcode := by
  have hop := headWord_mod i
  rw [← canonicalWords_filter, List.mem_filter, decide_eq_true_iff]
  exact (and_iff_left (by omega)).symm

theorem isTarget_iff (d : Operand) : d.isTarget = true ↔ d.mode ≠ .immediate := by
  unfold Operand.isTarget
  cases d.mode <;> decide

theorem headWord_mem_canonicalF3_iff {i : Instr} {a b d : Operand} (hos : i.operands = [a, b, d]) :
    (headWord i : Int) ∈ canonicalF3 (opcodeCode i.opcode) ↔ d.isTarget = true := by
  rw [isTarget_iff, headWord, hos]
  simp only [modesPrefix]
  cases a.mode <;> cases b.mode <;> cases d.mode <;> simp [canonicalF3, modeDigit]

theorem wellFormed_iff_mem_canonicalRow (i : Instr) :
    i.wellFormed = true ↔ (headWord i : Int) ∈ canonicalRow i.opcode := by
  cases i with
  | add a b d | multiply a b d | lessThan a b d | equals a b d =>
    exact (headWord_mem_canonicalF3_iff rfl).symm
  | input d =>
    rw [Instr.wellFormed, isTarget_iff]
    cases hd : d.mode <;>
      simp [headWord, Instr.operands, Instr.opcode, modesPrefix, opcodeCode, canonicalRow,
        modeDigit, hd]
  | jumpIfNotZero a t | jumpIfZero a t =>
    cases ha : a.mode <;> cases ht : t.mode <;>
      simp [Instr.wellFormed, headWord, Instr.operands, Instr.opcode, modesPrefix, opcodeCode,
        canonicalRow, modeDigit, ha, ht]
  | output a | adjustRelativeBase a =>
    cases ha : a.mode <;>
      simp [Instr.wellFormed, headWord, Instr.operands, Instr.opcode, modesPrefix, opcodeCode,
        canonicalRow, modeDigit, ha]
  | halt => decide

theorem wellFormed_iff_mem_canonicalWords (i : Instr) :
    i.wellFormed = true ↔ (headWord i : Int) ∈ canonicalWords := by
  rw [wellFormed_iff_mem_canonicalRow, headWord_mem_canonicalWords_iff]

/-- Every word of the table decodes, with operand cells 0, to an instruction it is the word of. -/
theorem exists_headWord_of_mem_canonicalWords {w : Int} (h : w ∈ canonicalWords) :
    ∃ i : Instr, (headWord i : Int) = w := by
  have table : ∀ v ∈ canonicalWords,
      (decodeTableWord 64 v.toNat).any (fun i => (headWord i : Int) = v) = true := by decide
  obtain ⟨i, -, hi⟩ := (Option.any_eq_true _ _).1 (table w h)
  exact ⟨i, of_decide_eq_true hi⟩

theorem cellAt_encode_zero_toInt (i : Instr) : (cellAt (encode i) 0).toInt = headWord i :=
  toInt_headWord i

/-- Settles O8: well-formedness and the row of an opcode both turn on the mode of the write target. -/
theorem wellFormedWordsAreTheCanonicalWords : Obligations.WellFormedWordsAreTheCanonicalWords := by
  simp only [Obligations.WellFormedWordsAreTheCanonicalWords, cellAt_encode_zero_toInt]
  refine ⟨rfl, wellFormed_iff_mem_canonicalWords, fun w hw => ?_⟩
  obtain ⟨i, rfl⟩ := exists_headWord_of_mem_canonicalWords hw
  exact ⟨i, (wellFormed_iff_mem_canonicalWords i).2 hw, rfl⟩

end Sys2Proof.Machine
end

section
/-! Decimal text (R77, R202): a written token reads back, and a written program splits into its tokens. -/

namespace Sys2Proof.Machine

/-! ## Tokens -/

/-- The character is an ASCII decimal digit (R202). -/
def IsDigit (c : Char) : Prop := 48 ≤ c.toNat ∧ c.toNat ≤ 57

theorem digitValue_digitChar {d : Nat} (h : d < 10) : digitValue (digitChar d) = some d := by
  have table : ∀ d < 10, digitValue (digitChar d) = some d := by decide
  exact table d h

theorem isDigit_of_digitValue {c : Char} {d : Nat} (h : digitValue c = some d) : IsDigit c := by
  unfold digitValue at h
  split at h
  · assumption
  · cases h

theorem isDigit_digitChar {d : Nat} (h : d < 10) : IsDigit (digitChar d) :=
  isDigit_of_digitValue (digitValue_digitChar h)

theorem IsDigit.ne {c e : Char} (h : IsDigit c) (he : ¬ (48 ≤ e.toNat ∧ e.toNat ≤ 57)) : c ≠ e := by
  rintro rfl
  exact he h

theorem forall_mem_natText (fuel n : Nat) : ∀ c ∈ natText fuel n, IsDigit c := by
  induction fuel generalizing n with
  | zero => simpa [natText] using isDigit_digitChar (Nat.mod_lt n (by decide))
  | succ fuel ih =>
    unfold natText
    split
    · simpa using isDigit_digitChar ‹n < 10›
    · intro c hc
      obtain hc | hc := List.mem_append.1 hc
      · exact ih _ c hc
      · exact List.mem_singleton.1 hc ▸ isDigit_digitChar (Nat.mod_lt n (by decide))

theorem natText_ne_nil (fuel n : Nat) : natText fuel n ≠ [] := by
  cases fuel with
  | zero => simp [natText]
  | succ fuel =>
    unfold natText
    split <;> simp

theorem parseDigits_append (acc : Nat) (xs ys : List Char) :
    parseDigits acc (xs ++ ys) = (parseDigits acc xs).bind fun n => parseDigits n ys := by
  induction xs generalizing acc with
  | nil => rfl
  | cons c cs ih =>
    simp only [List.cons_append, parseDigits]
    cases digitValue c with
    | none => rfl
    | some d => exact ih _

theorem parseDigits_digitChar (acc : Nat) {d : Nat} (h : d < 10) :
    parseDigits acc [digitChar d] = some (10 * acc + d) := by
  simp [parseDigits, digitValue_digitChar h]

theorem parseDigits_natText {fuel n : Nat} (h : n < 10 ^ (fuel + 1)) :
    parseDigits 0 (natText fuel n) = some n := by
  induction fuel generalizing n with
  | zero =>
    have hmod : n % 10 = n := Nat.mod_eq_of_lt h
    rw [natText, hmod, parseDigits_digitChar 0 h, Nat.mul_zero, Nat.zero_add]
  | succ fuel ih =>
    unfold natText
    split
    next hn => rw [parseDigits_digitChar 0 hn, Nat.mul_zero, Nat.zero_add]
    next =>
      have hdiv : n / 10 < 10 ^ (fuel + 1) := by
        rw [pow_succ] at h
        omega
      rw [parseDigits_append, ih hdiv, Option.bind_some,
        parseDigits_digitChar _ (Nat.mod_lt n (by decide)), Nat.div_add_mod]

theorem parseNat_eq_parseDigits {cs : List Char} (h : cs ≠ []) : parseNat cs = parseDigits 0 cs := by
  cases cs with
  | nil => exact absurd rfl h
  | cons c cs => rfl

theorem parseNat_natText {n : Nat} (h : n < 10 ^ 21) : parseNat (natText 20 n) = some n :=
  (parseNat_eq_parseDigits (natText_ne_nil 20 n)).trans (parseDigits_natText h)

theorem wordOf_toInt (v : Word) : wordOf v.toInt = some v := by
  rw [wordOf, (narrow_ok_iff v.toInt v).2 rfl]

theorem natAbs_lt (v : Word) : v.toInt.natAbs < 10 ^ 21 := by
  obtain ⟨hlo, hhi⟩ := word_range v
  simp only [minInt, maxInt] at hlo hhi
  omega

theorem parseToken_minus (ds : List Char) :
    parseToken ('-' :: ds) = (parseNat ds).bind fun n => wordOf (-(n : Int)) := rfl

theorem parseToken_digits {cs : List Char} (h : ∀ c ∈ cs, IsDigit c) :
    parseToken cs = (parseNat cs).bind fun n => wordOf (n : Int) := by
  cases cs with
  | nil => rfl
  | cons c cs => exact if_neg ((h c List.mem_cons_self).ne (by decide))

theorem parseToken_wordText (v : Word) : parseToken (wordText v) = some v := by
  have hnat := parseNat_natText (natAbs_lt v)
  unfold wordText
  split
  next hneg =>
    have habs : -(v.toInt.natAbs : Int) = v.toInt := by omega
    rw [parseToken_minus, hnat, Option.bind_some, habs, wordOf_toInt]
  next hneg =>
    have habs : (v.toInt.natAbs : Int) = v.toInt := by omega
    rw [parseToken_digits (forall_mem_natText 20 _), hnat, Option.bind_some, habs, wordOf_toInt]

theorem parseTokens_map_wordText (vs : List Word) : parseTokens (vs.map wordText) = some vs := by
  induction vs with
  | nil => rfl
  | cons v vs ih => simp [parseTokens, parseToken_wordText, ih]

theorem forall_mem_wordText (v : Word) : ∀ c ∈ wordText v, c = '-' ∨ IsDigit c := by
  have hdigits := forall_mem_natText 20 v.toInt.natAbs
  unfold wordText
  split
  · exact List.forall_mem_cons.2 ⟨.inl rfl, fun c hc => .inr (hdigits c hc)⟩
  · exact fun c hc => .inr (hdigits c hc)

theorem comma_notMem_wordText (v : Word) : ',' ∉ wordText v := by
  intro hc
  obtain h | h := forall_mem_wordText v _ hc
  · exact absurd h (by decide)
  · exact h.ne (e := ',') (by decide) rfl

/-! ## Splitting and trimming -/

/-- Characters that are no commas lengthen the first token and make no other. -/
theorem splitCommas_append {tok rest t : List Char} {ts : List (List Char)} (htok : ',' ∉ tok)
    (hrest : splitCommas rest = t :: ts) : splitCommas (tok ++ rest) = (tok ++ t) :: ts := by
  induction tok with
  | nil => exact hrest
  | cons c cs ih =>
    rw [List.mem_cons, not_or] at htok
    obtain ⟨hc, hcs⟩ := htok
    simp [splitCommas, Ne.symm hc, ih hcs]

theorem splitCommas_of_notMem {tok : List Char} (h : ',' ∉ tok) : splitCommas tok = [tok] := by
  simpa using splitCommas_append h (rest := []) rfl

theorem splitCommas_append_comma {tok : List Char} (h : ',' ∉ tok) (rest : List Char) :
    splitCommas (tok ++ ',' :: rest) = tok :: splitCommas rest := by
  simpa using splitCommas_append h (rest := ',' :: rest) rfl

theorem splitCommas_programText {vs : List Word} (h : vs ≠ []) :
    splitCommas (programText vs) = vs.map wordText := by
  induction vs with
  | nil => exact absurd rfl h
  | cons v vs ih =>
    have hv := comma_notMem_wordText v
    cases vs with
    | nil => exact splitCommas_of_notMem hv
    | cons u us =>
      exact (splitCommas_append_comma hv _).trans (congrArg _ (ih (List.cons_ne_nil u us)))

theorem dropWhile_isBlank_of_forall {cs : List Char} (h : ∀ c ∈ cs, isBlank c = false) :
    cs.dropWhile isBlank = cs :=
  List.dropWhile_eq_self_iff.2 fun hl => by simp [h _ (List.getElem_mem hl)]

theorem trim_of_forall_not_blank {text : List Char} (h : ∀ c ∈ text, isBlank c = false) :
    trim text = text := by
  rw [trim, dropWhile_isBlank_of_forall h,
    dropWhile_isBlank_of_forall fun c hc => h c (List.mem_reverse.1 hc), List.reverse_reverse]

theorem IsDigit.isBlank_eq_false {c : Char} (h : IsDigit c) : isBlank c = false := by
  simp [isBlank, h.ne (e := ' ') (by decide), h.ne (e := '\t') (by decide),
    h.ne (e := '\n') (by decide), h.ne (e := '\r') (by decide)]

theorem isBlank_of_mem_wordText {v : Word} {c : Char} (hc : c ∈ wordText v) : isBlank c = false := by
  obtain rfl | h := forall_mem_wordText v c hc
  · rfl
  · exact h.isBlank_eq_false

theorem isBlank_of_mem_programText {vs : List Word} {c : Char} (hc : c ∈ programText vs) :
    isBlank c = false := by
  induction vs with
  | nil => cases hc
  | cons v vs ih =>
    cases vs with
    | nil => exact isBlank_of_mem_wordText hc
    | cons u us =>
      obtain hc | hc := List.mem_append.1 hc
      · exact isBlank_of_mem_wordText hc
      · obtain rfl | hc := List.mem_cons.1 hc
        · rfl
        · exact ih hc

/-- Settles O49: the text has no blanks to trim, its commas part it into the words' tokens, and each token
reads back. -/
theorem writtenTextParsesBack : Obligations.WrittenTextParsesBack := by
  intro program hne
  calc parseText (programText program)
      = parseTokens (splitCommas (programText program)) := by
        rw [parseText, trim_of_forall_not_blank fun _ => isBlank_of_mem_programText]
    _ = parseTokens (program.map wordText) := by rw [splitCommas_programText hne]
    _ = some program := parseTokens_map_wordText program

end Sys2Proof.Machine
end

section
/-! Operand resolution by mode (spec/40_cycle_and_operands.md R87, R88). -/

namespace Sys2Proof.Machine

/-! ## Addresses -/

theorem checkAddress_of_neg {a : Int} (h : a < 0) : checkAddress a = .error (.negativeAddress a) :=
  (checkAddress_error_iff _ _).2 ⟨h, rfl⟩

theorem checkAddress_of_nonneg {a : Int} (h : 0 ≤ a) : checkAddress a = .ok a.toNat :=
  (checkAddress_ok_iff _ _).2 (Int.toNat_of_nonneg h).symm

theorem memRead_of_neg {a : Int} (h : a < 0) (s : State) :
    memRead a s = .error (.negativeAddress a) :=
  (memRead_error_iff _ _ _).2 ⟨h, rfl⟩

theorem memRead_of_nonneg {a : Int} (h : 0 ≤ a) (s : State) :
    memRead a s = .ok (Memory.read s.mem a.toNat) :=
  (memRead_ok_iff _ _ _).2 ⟨h, rfl⟩

/-! ## The three modes -/

theorem resolveRead_position (c : Word) (s : State) :
    resolveRead ⟨.position, c⟩ s = memRead c.toInt s := rfl

theorem resolveRead_immediate (c : Word) (s : State) : resolveRead ⟨.immediate, c⟩ s = .ok c := rfl

theorem resolveRead_relative_of_overflow {c : Word} {s : State}
    (h : OutsideInt64 (s.rb.toInt + c.toInt)) :
    resolveRead ⟨.relative, c⟩ s = .error .arithmeticOverflow := by
  have hsum : add64 s.rb c = .error .arithmeticOverflow := (add64_error_iff _ _ _).2 ⟨rfl, h⟩
  simp [resolveRead, hsum]

theorem resolveRead_relative_of_range {c : Word} {s : State} (hlo : minInt ≤ s.rb.toInt + c.toInt)
    (hhi : s.rb.toInt + c.toInt ≤ maxInt) :
    resolveRead ⟨.relative, c⟩ s = memRead (s.rb.toInt + c.toInt) s := by
  obtain ⟨r, hr, hval⟩ := narrow_exact_of_range hlo hhi
  simp [resolveRead, add64, hr, hval]

theorem resolveWrite_position (c : Word) (s : State) :
    resolveWrite ⟨.position, c⟩ s = checkAddress c.toInt := rfl

theorem resolveWrite_immediate (c : Word) (s : State) :
    resolveWrite ⟨.immediate, c⟩ s = .error .invalidWriteTarget := rfl

theorem resolveWrite_relative_of_overflow {c : Word} {s : State}
    (h : OutsideInt64 (s.rb.toInt + c.toInt)) :
    resolveWrite ⟨.relative, c⟩ s = .error .arithmeticOverflow := by
  have hsum : add64 s.rb c = .error .arithmeticOverflow := (add64_error_iff _ _ _).2 ⟨rfl, h⟩
  simp [resolveWrite, hsum]

theorem resolveWrite_relative_of_range {c : Word} {s : State} (hlo : minInt ≤ s.rb.toInt + c.toInt)
    (hhi : s.rb.toInt + c.toInt ≤ maxInt) :
    resolveWrite ⟨.relative, c⟩ s = checkAddress (s.rb.toInt + c.toInt) := by
  obtain ⟨r, hr, hval⟩ := narrow_exact_of_range hlo hhi
  simp [resolveWrite, add64, hr, hval]

/-! ## The obligations -/

theorem le_maxInt_of_neg {a : Int} (h : a < 0) : a ≤ maxInt := by
  simp only [maxInt]
  omega

theorem minInt_le_of_nonneg {a : Int} (h : 0 ≤ a) : minInt ≤ a := by
  simp only [minInt]
  omega

/-- Settles O9: each mode reads memory at an address, or takes the cell, or has no sum to read at. -/
theorem readOperandsResolveByMode : Obligations.ReadOperandsResolveByMode := by
  intro c s
  refine ⟨?positionNegative, ?position, resolveRead_immediate c s, resolveRead_relative_of_overflow,
    ?relativeNegative, ?relative⟩
  case positionNegative => exact fun hneg => (resolveRead_position c s).trans (memRead_of_neg hneg s)
  case position => exact fun hpos => (resolveRead_position c s).trans (memRead_of_nonneg hpos s)
  case relativeNegative =>
    rintro ⟨hlo, hneg⟩
    rw [resolveRead_relative_of_range hlo (le_maxInt_of_neg hneg), memRead_of_neg hneg]
  case relative =>
    rintro ⟨hpos, hhi⟩
    rw [resolveRead_relative_of_range (minInt_le_of_nonneg hpos) hhi, memRead_of_nonneg hpos]

/-- Settles O10: as for a read operand, but the address itself is the answer. -/
theorem writeTargetsResolveByMode : Obligations.WriteTargetsResolveByMode := by
  intro c s
  refine ⟨?positionNegative, ?position, resolveWrite_immediate c s, resolveWrite_relative_of_overflow,
    ?relativeNegative, ?relative, fun m => resolveWrite_le ⟨m, c⟩ s⟩
  case positionNegative => exact fun hneg => (resolveWrite_position c s).trans (checkAddress_of_neg hneg)
  case position => exact fun hpos => (resolveWrite_position c s).trans (checkAddress_of_nonneg hpos)
  case relativeNegative =>
    rintro ⟨hlo, hneg⟩
    rw [resolveWrite_relative_of_range hlo (le_maxInt_of_neg hneg), checkAddress_of_neg hneg]
  case relative =>
    rintro ⟨hpos, hhi⟩
    rw [resolveWrite_relative_of_range (minInt_le_of_nonneg hpos) hhi, checkAddress_of_nonneg hpos]

end Sys2Proof.Machine
end

section
/-! Which instruction a step runs, and that there is a step (spec/40_cycle_and_operands.md R80, R86, R95). -/

namespace Sys2Proof.Machine

/-! ## A step exists -/

theorem conclude_answers (s : State) (r : Except Trap State) : ∃ t, conclude s r = .next t := by
  cases r with
  | ok t => exact ⟨t, rfl⟩
  | error e => exact ⟨raise e s, rfl⟩

/-- Settles O17: every meaning but halt's ends in `conclude`, which answers a next state. -/
theorem everyInstructionAnswersANextState : Obligations.EveryInstructionAnswersANextState := by
  intro i s
  cases i with
  | halt => exact ⟨halted s, rfl⟩
  | add | multiply | input | output | jumpIfNotZero | jumpIfZero | lessThan | equals
  | adjustRelativeBase => exact conclude_answers s _

theorem active_iff (s : State) : Active s ↔ s.st ≠ .halted ∧ s.st ≠ .failed := by
  unfold Active
  cases s.st <;> simp

theorem step_of_halted {s : State} (h : s.st = .halted) : step s = .fault .noStepHalted := by
  simp [step, driver, h]

theorem step_of_failed {s : State} (h : s.st = .failed) : step s = .fault .noStepFailed := by
  simp [step, driver, h]

theorem step_of_decode_unknownOpcode {s : State} (h : Active s)
    (hdec : decode (fetchCells s) = .unknownOpcode) : step s = .next (raise .unknownOpcode s) :=
  (step_eq_next_iff _ _).2 ⟨h, .inl ⟨hdec, rfl⟩⟩

theorem step_of_decode_invalidParameterMode {s : State} (h : Active s)
    (hdec : decode (fetchCells s) = .invalidParameterMode) :
    step s = .next (raise .invalidParameterMode s) :=
  (step_eq_next_iff _ _).2 ⟨h, .inr (.inl ⟨hdec, rfl⟩)⟩

theorem step_of_decode_instr {s : State} {i : Instr} (h : Active s)
    (hdec : decode (fetchCells s) = .instr i) : step s = exec i s := by
  obtain ⟨t, ht⟩ := everyInstructionAnswersANextState i s
  rw [ht, step_eq_next_iff]
  exact ⟨h, .inr (.inr ⟨i, hdec, ht⟩)⟩

/-- Settles O11: `step_of_decode_instr`, for every state and instruction. -/
theorem stepRunsTheDecodedInstruction : Obligations.StepRunsTheDecodedInstruction :=
  fun _ _ => step_of_decode_instr

theorem exists_step_of_active {s : State} (h : Active s) : ∃ t, step s = .next t := by
  cases hdec : decode (fetchCells s) with
  | unknownOpcode => exact ⟨_, step_of_decode_unknownOpcode h hdec⟩
  | invalidParameterMode => exact ⟨_, step_of_decode_invalidParameterMode h hdec⟩
  | instr i =>
    rw [step_of_decode_instr h hdec]
    exact everyInstructionAnswersANextState i s

/-- Settles O16: an Active state has a step whatever its cells decode to. -/
theorem stepExistsExactlyWhenNotTerminal : Obligations.StepExistsExactlyWhenNotTerminal := by
  intro s
  refine ⟨step_of_halted, step_of_failed, ?_⟩
  rw [← active_iff]
  exact ⟨fun ⟨t, ht⟩ => ((step_eq_next_iff s t).1 ht).1, exists_step_of_active⟩

/-! ## The instruction stored at `ip` -/

theorem cellAt_fetchCells (s : State) {k : Nat} (hk : k < 4) :
    cellAt (fetchCells s) k = Memory.read s.mem (s.ip + k) := by
  match k, hk with
  | 0, _ | 1, _ | 2, _ | 3, _ => rfl

theorem operandAt_congr {cells cells' : List Word} {k : Nat} (w : Nat)
    (h : cellAt cells (k + 1) = cellAt cells' (k + 1)) :
    operandAt k w cells = operandAt k w cells' := by
  unfold operandAt
  rw [h]

/-- The decoder reads no cell past the instruction's length (R60). -/
theorem decode_instr_congr {cells cells' : List Word} {i : Instr}
    (h : ∀ k, k < i.length → cellAt cells k = cellAt cells' k) (hdec : decode cells' = .instr i) :
    decode cells = .instr i := by
  rw [decode_eq_instr_iff] at hdec ⊢
  obtain ⟨hnonneg, hop, hos⟩ := hdec
  rw [h 0 (Nat.succ_pos _)]
  refine ⟨hnonneg, hop, fun k o ho => ?_⟩
  have hk : k < i.operands.length := (List.getElem?_eq_some_iff.1 ho).1
  rw [operandAt_congr _ (h (k + 1) (Nat.succ_lt_succ hk))]
  exact hos k o ho

theorem decode_encode (i : Instr) : decode (encode i) = .instr i := by
  simpa using decodeOfEncodeIsTheInstruction i []

theorem length_le_four (i : Instr) : i.length ≤ 4 := Nat.succ_le_succ (operands_length_le i)

/-- Settles O12: the cells fetched are those of the encoding, as far as the decoder reads them. -/
theorem stepRunsTheEncodingStoredAtIp : Obligations.StepRunsTheEncodingStoredAtIp := by
  intro s i hactive hstored
  refine step_of_decode_instr hactive (decode_instr_congr (fun k hk => ?_) (decode_encode i))
  rw [cellAt_fetchCells s (hk.trans_le (length_le_four i)), hstored k hk]

end Sys2Proof.Machine
end

section
/-! Which error is raised (spec/40_cycle_and_operands.md R85, R89; spec/60_exceptions.md R168): the first of an
instruction's checks to fail, in the order successor, operands, operation. -/

namespace Sys2Proof.Machine

/-! ## The first check to fail -/

theorem conclude_bind_ok {α : Type} {x : Except Trap α} {a : α} (hx : x = .ok a)
    (f : α → Except Trap State) (s : State) : conclude s (x >>= f) = conclude s (f a) := by
  rw [hx, bind_ok]

theorem conclude_bind_error {α : Type} {x : Except Trap α} {e : Trap} (hx : x = .error e)
    (f : α → Except Trap State) (s : State) : conclude s (x >>= f) = .next (raise e s) := by
  rw [hx, bind_error, conclude_error]

theorem successor_of_le {n : Nat} {s : State} (h : s.ip + n + 1 ≤ maxAddr) :
    successor n s = .ok (s.ip + n + 1) :=
  (successor_ok_iff _ _ _).2 ⟨h, rfl⟩

theorem successor_of_gt {n : Nat} {s : State} (h : maxAddr < s.ip + n + 1) :
    successor n s = .error .arithmeticOverflow :=
  (successor_error_iff _ _ _).2 ⟨h, rfl⟩

/-- Settles O40: the successor address is the first check of every instruction but halt. -/
theorem successorAboveMaxaddrRaises : Obligations.SuccessorAboveMaxaddrRaises := by
  intro i s hhalt hip
  cases i with
  | halt => exact absurd rfl hhalt
  | add | multiply | input | output | jumpIfNotZero | jumpIfZero | lessThan | equals
  | adjustRelativeBase => exact conclude_bind_error (successor_of_gt hip) _ s

/-! ## Operands in ascending index -/

theorem storeResult_of_operand_error (op : Word → Word → Except Trap Word) {a b d : Operand} {s : State}
    {e : Trap} (hip : s.ip + 4 ≤ maxAddr)
    (h : resolveRead a s = .error e ∨
      ∃ v, resolveRead a s = .ok v ∧ (resolveRead b s = .error e ∨
        ∃ w, resolveRead b s = .ok w ∧ resolveWrite d s = .error e)) :
    storeResult op a b d s = .next (raise e s) := by
  refine (conclude_bind_ok (successor_of_le (n := 3) hip) _ s).trans ?_
  obtain ha | ⟨v, ha, h⟩ := h
  · exact conclude_bind_error ha _ s
  refine (conclude_bind_ok ha _ s).trans ?_
  obtain hb | ⟨w, hb, hd⟩ := h
  · exact conclude_bind_error hb _ s
  exact (conclude_bind_ok hb _ s).trans (conclude_bind_error hd _ s)

theorem jumpWhen_of_operand_error (test : Word → Bool) {a t : Operand} {s : State} {e : Trap}
    (hip : s.ip + 3 ≤ maxAddr)
    (h : resolveRead a s = .error e ∨
      ∃ v, resolveRead a s = .ok v ∧ resolveRead t s = .error e) :
    jumpWhen test a t s = .next (raise e s) := by
  refine (conclude_bind_ok (successor_of_le (n := 2) hip) _ s).trans ?_
  obtain ha | ⟨v, ha, ht⟩ := h
  · exact conclude_bind_error ha _ s
  exact (conclude_bind_ok ha _ s).trans (conclude_bind_error ht _ s)

/-- Each two-operand instruction is format F2 with its own test. -/
theorem exec_twoOperand {mk : Operand → Operand → Instr} (hmk : mk ∈ twoOperand) :
    ∃ test : Word → Bool, ∀ a t s, exec (mk a t) s = jumpWhen test a t s := by
  simp only [twoOperand, List.mem_cons, List.not_mem_nil, or_false] at hmk
  obtain rfl | rfl := hmk
  · exact ⟨fun v => !isZero v, fun _ _ _ => rfl⟩
  · exact ⟨isZero, fun _ _ _ => rfl⟩

/-- Settles O41: the operands come after the successor, in ascending index, and before everything else. -/
theorem firstOperandFaultIsRaised : Obligations.FirstOperandFaultIsRaised := by
  intro s e
  refine ⟨?threeOperand, ?twoOperand, ?oneOperand⟩
  case threeOperand =>
    intro mk hmk a b d v w hip
    obtain ⟨op, -, hexec⟩ := exec_threeOperand hmk
    simp only [hexec]
    exact ⟨fun ha => storeResult_of_operand_error op hip (.inl ha),
      fun ha hb => storeResult_of_operand_error op hip (.inr ⟨v, ha, .inl hb⟩),
      fun ha hb hd => storeResult_of_operand_error op hip (.inr ⟨v, ha, .inr ⟨w, hb, hd⟩⟩)⟩
  case twoOperand =>
    intro mk hmk a t v hip
    obtain ⟨test, hexec⟩ := exec_twoOperand hmk
    simp only [hexec]
    exact ⟨fun ha => jumpWhen_of_operand_error test hip (.inl ha),
      fun ha ht => jumpWhen_of_operand_error test hip (.inr ⟨v, ha, ht⟩)⟩
  case oneOperand =>
    intro a hip
    have hn : successor 1 s = .ok (s.ip + 1 + 1) := successor_of_le hip
    refine ⟨fun ha => ?output, fun ha => ?adjust, fun hd => ?input⟩
    case output | adjust => exact (conclude_bind_ok hn _ s).trans (conclude_bind_error ha _ s)
    case input => exact (conclude_bind_ok hn _ s).trans (conclude_bind_error hd _ s)

end Sys2Proof.Machine
end

section
/-! The errors a step records (spec/40_cycle_and_operands.md R90, R91; spec/60_exceptions.md R162 to R166): the
state before it with `st` and `err` written, and the cause of each kind of error. -/

namespace Sys2Proof.Machine

/-! ## Faults are precise -/

theorem ExecOutcome.eq_raise {i : Instr} {s t : State} (h : ExecOutcome i s t) (hst : t.st = .failed) :
    ∃ e, t = raise e s := by
  cases h with
  | raised e => exact ⟨e, rfl⟩
  | halted | held => cases hst
  | completed t _ _ _ hc => cases hc.st_eq.symm.trans hst

theorem step_failed_eq_raise {s t : State} (h : step s = .next t) (hst : t.st = .failed) :
    ∃ e, t = raise e s := by
  obtain ⟨-, ⟨-, rfl⟩ | ⟨-, rfl⟩ | ⟨i, -, hexec⟩⟩ := (step_eq_next_iff s t).1 h
  · exact ⟨_, rfl⟩
  · exact ⟨_, rfl⟩
  · exact (exec_outcome hexec).eq_raise hst

/-- Settles O18: a step that ends in Failed is `raise` in the state before it. -/
theorem faultsArePrecise : Obligations.FaultsArePrecise := by
  intro s t h hst
  obtain ⟨e, rfl⟩ := step_failed_eq_raise h hst
  exact ⟨rfl, rfl, rfl, rfl, rfl, trapKind_ne_noError e, rfl, rfl⟩

/-! ## The cause of an operand's error -/

/-- Why the operand `o` comes to no address: its sum with `rb` is no Int64, or the address is negative. -/
inductive AddressTrap (o : Operand) (s : State) : Trap → Prop where
  | overflow : o.mode = .relative → OutsideInt64 (s.rb.toInt + o.cell.toInt) →
      AddressTrap o s .arithmeticOverflow
  | negative (a : Int) : a < 0 →
      ((o.mode = .position ∧ o.cell.toInt = a) ∨
        (o.mode = .relative ∧ s.rb.toInt + o.cell.toInt = a)) →
      AddressTrap o s (.negativeAddress a)

theorem addressTrap_of_position {c : Word} {s : State} {e : Trap}
    (h : c.toInt < 0 ∧ e = .negativeAddress c.toInt) : AddressTrap ⟨.position, c⟩ s e := by
  obtain ⟨hneg, rfl⟩ := h
  exact .negative _ hneg (.inl ⟨rfl, rfl⟩)

theorem addressTrap_of_relative {c : Word} {s : State} {e : Trap}
    (h : add64 s.rb c = .error e ∨
      ∃ a, add64 s.rb c = .ok a ∧ a.toInt < 0 ∧ e = .negativeAddress a.toInt) :
    AddressTrap ⟨.relative, c⟩ s e := by
  obtain h | ⟨a, ha, hneg, rfl⟩ := h
  · obtain ⟨rfl, hout⟩ := (add64_error_iff _ _ _).1 h
    exact .overflow rfl hout
  · exact .negative _ hneg (.inr ⟨rfl, ((add64_ok_iff _ _ _).1 ha).symm⟩)

theorem resolveRead_error {o : Operand} {s : State} {e : Trap} (h : resolveRead o s = .error e) :
    AddressTrap o s e := by
  obtain ⟨m, c⟩ := o
  cases m with
  | position => exact addressTrap_of_position ((memRead_error_iff _ _ _).1 h)
  | immediate => cases h
  | relative =>
    refine addressTrap_of_relative ?_
    simpa only [memRead_error_iff] using (bind_error_iff _ _ _).1 h

theorem resolveWrite_error {d : Operand} {s : State} {e : Trap} (h : resolveWrite d s = .error e) :
    (d.mode = .immediate ∧ e = .invalidWriteTarget) ∨ AddressTrap d s e := by
  obtain ⟨m, c⟩ := d
  cases m with
  | position => exact .inr (addressTrap_of_position ((checkAddress_error_iff _ _).1 h))
  | immediate =>
    cases h
    exact .inl ⟨rfl, rfl⟩
  | relative =>
    refine .inr (addressTrap_of_relative ?_)
    simpa only [checkAddress_error_iff] using (bind_error_iff _ _ _).1 h

/-! ## The cause of an instruction's error -/

/-- Why the decoded instruction `i` raises the error (R90, orders 3 to 7). -/
inductive InstrTrap (i : Instr) (s : State) : Trap → Prop where
  | successor : i ≠ .halt → maxAddr < s.ip + i.length → InstrTrap i s .arithmeticOverflow
  | operand (o : Operand) (e : Trap) : o ∈ i.operands → AddressTrap o s e → InstrTrap i s e
  | writeTarget (d : Operand) : i.writeTarget = some d → d.mode = .immediate →
      InstrTrap i s .invalidWriteTarget
  | result : ResultOverflows i s → InstrTrap i s .arithmeticOverflow
  | jump (w : Word) : JumpTaken i s w → w.toInt < 0 → InstrTrap i s (.negativeAddress w.toInt)

theorem instrTrap_of_successor {i : Instr} {s : State} {n : Nat} {e : Trap} (hi : i ≠ .halt)
    (hn : i.operands.length = n) (h : successor n s = .error e) : InstrTrap i s e := by
  subst hn
  obtain ⟨hip, rfl⟩ := (successor_error_iff _ _ _).1 h
  exact .successor hi hip

theorem instrTrap_of_read {i : Instr} {s : State} {o : Operand} {e : Trap} (ho : o ∈ i.operands)
    (h : resolveRead o s = .error e) : InstrTrap i s e :=
  .operand o e ho (resolveRead_error h)

theorem instrTrap_of_write {i : Instr} {s : State} {d : Operand} {e : Trap} (hd : d ∈ i.operands)
    (htarget : i.writeTarget = some d) (h : resolveWrite d s = .error e) : InstrTrap i s e := by
  obtain ⟨himm, rfl⟩ | h := resolveWrite_error h
  · exact .writeTarget d htarget himm
  · exact .operand d e hd h

/-- A concluded step that failed raised, when its effects end in another run state. -/
theorem conclude_failed {s t : State} {r : Except Trap State} (h : conclude s r = .next t)
    (hst : t.st = .failed) (hok : ∀ u, r = .ok u → u.st ≠ .failed) :
    ∃ e, r = .error e ∧ t = raise e s := by
  obtain hr | h := (conclude_eq_next_iff _ _ _).1 h
  · exact absurd hst (hok t hr)
  · exact h

theorem storeResult_failed {op : Word → Word → Except Trap Word} {a b d : Operand} {i : Instr}
    {s t : State} (hos : i.operands = [a, b, d]) (htarget : i.writeTarget = some d)
    (hop : ∀ v w e, resolveRead a s = .ok v → resolveRead b s = .ok w → op v w = .error e →
      InstrTrap i s e)
    (h : storeResult op a b d s = .next t) (hst : t.st = .failed) :
    ∃ e, InstrTrap i s e ∧ t = raise e s := by
  have hi : i ≠ .halt := by
    rintro rfl
    cases htarget
  obtain ⟨e, he, rfl⟩ := conclude_failed h hst fun u hu => by
    simp only [bind_ok_iff, Except.ok.injEq] at hu
    obtain ⟨_, -, _, -, _, -, _, -, _, -, rfl⟩ := hu
    exact nofun
  refine ⟨e, ?_, rfl⟩
  simp only [bind_error_iff, reduceCtorEq, and_false, exists_false, or_false] at he
  obtain h | ⟨_, -, h | ⟨v, ha, h | ⟨w, hb, h | ⟨_, -, h⟩⟩⟩⟩ := he
  · exact instrTrap_of_successor hi (by simp [hos]) h
  · exact instrTrap_of_read (by simp [hos]) h
  · exact instrTrap_of_read (by simp [hos]) h
  · exact instrTrap_of_write (by simp [hos]) htarget h
  · exact hop v w e ha hb h

theorem jumpWhen_failed {test : Word → Bool} {a u : Operand} {i : Instr} {s t : State}
    (hos : i.operands = [a, u])
    (htaken : ∀ v w, resolveRead a s = .ok v → resolveRead u s = .ok w → test v = true →
      JumpTaken i s w)
    (h : jumpWhen test a u s = .next t) (hst : t.st = .failed) :
    ∃ e, InstrTrap i s e ∧ t = raise e s := by
  have hi : i ≠ .halt := by
    rintro rfl
    cases hos
  obtain ⟨e, he, rfl⟩ := conclude_failed h hst fun u hu => by
    simp only [bind_ok_iff, Except.ok.injEq] at hu
    obtain ⟨_, -, _, -, _, -, _, -, rfl⟩ := hu
    exact nofun
  refine ⟨e, ?_, rfl⟩
  simp only [bind_error_iff, reduceCtorEq, and_false, exists_false, or_false] at he
  obtain h | ⟨_, -, h | ⟨v, ha, h | ⟨w, hu, h⟩⟩⟩ := he
  · exact instrTrap_of_successor hi (by simp [hos]) h
  · exact instrTrap_of_read (by simp [hos]) h
  · exact instrTrap_of_read (by simp [hos]) h
  · obtain ⟨hv, hneg, rfl⟩ := (jumpTarget_error_iff _ _ _ _).1 h
    exact .jump w (htaken v w ha hu hv) hneg

theorem execInput_failed {d : Operand} {s t : State} (h : execInput d s = .next t)
    (hst : t.st = .failed) : ∃ e, InstrTrap (.input d) s e ∧ t = raise e s := by
  obtain ⟨e, he, rfl⟩ := conclude_failed h hst fun u hu => by
    simp only [bind_ok_iff] at hu
    obtain ⟨_, -, _, -, hu⟩ := hu
    split at hu <;> cases hu <;> exact nofun
  refine ⟨e, ?_, rfl⟩
  simp only [bind_error_iff] at he
  obtain h | ⟨_, -, h | ⟨_, -, h⟩⟩ := he
  · exact instrTrap_of_successor nofun rfl h
  · exact instrTrap_of_write (List.mem_singleton_self d) rfl h
  · split at h <;> cases h

theorem execOutput_failed {a : Operand} {s t : State} (h : execOutput a s = .next t)
    (hst : t.st = .failed) : ∃ e, InstrTrap (.output a) s e ∧ t = raise e s := by
  obtain ⟨e, he, rfl⟩ := conclude_failed h hst fun u hu => by
    simp only [bind_ok_iff, Except.ok.injEq] at hu
    obtain ⟨_, -, _, -, rfl⟩ := hu
    exact nofun
  refine ⟨e, ?_, rfl⟩
  simp only [bind_error_iff, reduceCtorEq, and_false, exists_false, or_false] at he
  obtain h | ⟨_, -, h⟩ := he
  · exact instrTrap_of_successor nofun rfl h
  · exact instrTrap_of_read (List.mem_singleton_self a) h

theorem execAdjustRelativeBase_failed {a : Operand} {s t : State}
    (h : execAdjustRelativeBase a s = .next t) (hst : t.st = .failed) :
    ∃ e, InstrTrap (.adjustRelativeBase a) s e ∧ t = raise e s := by
  obtain ⟨e, he, rfl⟩ := conclude_failed h hst fun u hu => by
    simp only [bind_ok_iff, Except.ok.injEq] at hu
    obtain ⟨_, -, _, -, _, -, rfl⟩ := hu
    exact nofun
  refine ⟨e, ?_, rfl⟩
  simp only [bind_error_iff, reduceCtorEq, and_false, exists_false, or_false] at he
  obtain h | ⟨_, -, h | ⟨v, ha, h⟩⟩ := he
  · exact instrTrap_of_successor nofun rfl h
  · exact instrTrap_of_read (List.mem_singleton_self a) h
  · obtain ⟨rfl, hout⟩ := (add64_error_iff _ _ _).1 h
    exact .result ⟨v, ha, hout⟩

theorem exec_failed {i : Instr} {s t : State} (h : exec i s = .next t) (hst : t.st = .failed) :
    ∃ e, InstrTrap i s e ∧ t = raise e s := by
  cases i with
  | add a b d =>
    refine storeResult_failed rfl rfl (fun v w e ha hb hr => ?_) h hst
    obtain ⟨rfl, hout⟩ := (add64_error_iff _ _ _).1 hr
    exact .result ⟨v, w, ha, hb, hout⟩
  | multiply a b d =>
    refine storeResult_failed rfl rfl (fun v w e ha hb hr => ?_) h hst
    obtain ⟨rfl, hout⟩ := (mul64_error_iff _ _ _).1 hr
    exact .result ⟨v, w, ha, hb, hout⟩
  | lessThan a b d | equals a b d =>
    refine storeResult_failed rfl rfl (fun v w e _ _ hr => ?_) h hst
    cases hr
  | input d => exact execInput_failed h hst
  | output a => exact execOutput_failed h hst
  | jumpIfNotZero a u =>
    exact jumpWhen_failed rfl (fun v w ha hu hv => ⟨⟨v, ha, by simpa [isZero] using hv⟩, hu⟩) h hst
  | jumpIfZero a u =>
    exact jumpWhen_failed rfl (fun v w ha hu hv => ⟨⟨v, ha, by simpa [isZero] using hv⟩, hu⟩) h hst
  | adjustRelativeBase a => exact execAdjustRelativeBase_failed h hst
  | halt =>
    obtain rfl : halted s = t := Host.Outcome.next.inj h
    cases hst

/-- Settles O19: a decode error has the decoder's condition, and an instruction's error the cause that
`InstrTrap` gives. -/
theorem everyErrorHasItsCause : Obligations.EveryErrorHasItsCause := by
  intro s t h hst
  obtain ⟨-, ⟨hdec, rfl⟩ | ⟨hdec, rfl⟩ | ⟨i, hdec, hexec⟩⟩ := (step_eq_next_iff s t).1 h
  · simpa only [raise_err, trapKind, cellAt_fetchCells_zero] using
      (decode_eq_unknownOpcode_iff _).1 hdec
  · simpa only [raise_err, trapKind, cellAt_fetchCells_zero] using
      ((decode_eq_invalidParameterMode_iff _).1 hdec).2
  · obtain ⟨e, he, rfl⟩ := exec_failed hexec hst
    cases he with
    | successor hi hip => exact ⟨i, hdec, .inl ⟨hi, hip⟩⟩
    | operand o e ho ha =>
      cases ha with
      | overflow hrel hout => exact ⟨i, hdec, .inr (.inl ⟨o, ho, hrel, hout⟩)⟩
      | negative a hneg hmode => exact ⟨i, a, hdec, rfl, hneg, .inl ⟨o, ho, hmode⟩⟩
    | writeTarget d htarget himm => exact ⟨i, d, hdec, htarget, himm⟩
    | result hover => exact ⟨i, hdec, .inr (.inr hover)⟩
    | jump v hv hneg => exact ⟨i, v.toInt, hdec, rfl, hneg, .inr ⟨v, hv, rfl⟩⟩

end Sys2Proof.Machine
end

section
/-! What a step does to `ip`, `rb` and the channels (spec/40_cycle_and_operands.md R92 to R94). -/

namespace Sys2Proof.Machine

/-! ## `ip` -/

/-- A halt, a hold and a fault leave `ip`. -/
theorem ExecOutcome.ip_eq {i : Instr} {s t : State} (h : ExecOutcome i s t) (hst : t.st ≠ .running) :
    t.ip = s.ip := by
  cases h with
  | raised | halted | held => rfl
  | completed t _ _ _ hc => exact absurd hc.st_eq hst

/-- Where a completed instruction leaves `ip`: at the target of a taken jump, else at the successor (R92). -/
def IpAdvances (i : Instr) (s t : State) : Prop :=
  (∃ w, JumpTaken i s w ∧ (t.ip : Int) = w.toInt) ∨
    ((∀ w, ¬ JumpTaken i s w) ∧ t.ip = s.ip + i.length)

theorem jumpWhen_ipAdvances {test : Word → Bool} {a u : Operand} {i : Instr} {s t : State}
    (htaken : ∀ w, JumpTaken i s w ↔
      (∃ v, resolveRead a s = .ok v ∧ test v = true) ∧ resolveRead u s = .ok w)
    (hlen : i.length = 3) (h : jumpWhen test a u s = .next t) (hst : t.st = .running) :
    IpAdvances i s t := by
  obtain ⟨v, w, p, -, ha, hu, ⟨hv, hw⟩ | ⟨hv, hp⟩, rfl⟩ | ⟨e, -, rfl⟩ := jumpWhen_cases test a u s t h
  · exact .inl ⟨w, (htaken w).2 ⟨⟨v, ha, hv⟩, hu⟩, hw.symm⟩
  · refine .inr ⟨fun w' hw' => ?_, by rw [hlen, goto_ip, hp]⟩
    obtain ⟨⟨v', ha', hv'⟩, -⟩ := (htaken w').1 hw'
    obtain rfl : v = v' := Except.ok.inj (ha.symm.trans ha')
    cases hv.symm.trans hv'
  · cases hst

theorem exec_ipAdvances {i : Instr} {s t : State} (h : exec i s = .next t) (hst : t.st = .running) :
    IpAdvances i s t := by
  cases i with
  | add | multiply | lessThan | equals =>
    exact .inr ⟨nofun, exec_threeOperand_ip (by simp [threeOperand]) h hst⟩
  | input d =>
    obtain ⟨p, x, xs, -, -, -, rfl⟩ | ⟨p, -, -, -, rfl⟩ | ⟨e, -, rfl⟩ := execInput_cases d s t h
    · exact .inr ⟨nofun, rfl⟩
    · cases hst
    · cases hst
  | output a =>
    obtain ⟨v, -, -, rfl⟩ | ⟨e, -, rfl⟩ := execOutput_cases a s t h
    · exact .inr ⟨nofun, rfl⟩
    · cases hst
  | jumpIfNotZero a u => exact jumpWhen_ipAdvances (by simp [JumpTaken, isZero]) rfl h hst
  | jumpIfZero a u => exact jumpWhen_ipAdvances (by simp [JumpTaken, isZero]) rfl h hst
  | adjustRelativeBase a =>
    obtain ⟨v, r, -, -, -, rfl⟩ | ⟨e, -, rfl⟩ := execAdjustRelativeBase_cases a s t h
    · exact .inr ⟨nofun, rfl⟩
    · cases hst
  | halt =>
    obtain rfl : halted s = t := Host.Outcome.next.inj h
    cases hst

/-- Settles O24: a decode error leaves `ip`; the outcome of an instruction says the rest. -/
theorem ipGoesToTargetOrSuccessor : Obligations.IpGoesToTargetOrSuccessor := by
  intro s t h
  obtain ⟨-, ⟨-, rfl⟩ | ⟨-, rfl⟩ | ⟨i, hdec, hexec⟩⟩ := (step_eq_next_iff s t).1 h
  · exact ⟨fun _ => rfl, nofun⟩
  · exact ⟨fun _ => rfl, nofun⟩
  · exact ⟨(exec_outcome hexec).ip_eq, fun hst => ⟨i, hdec, exec_ipAdvances hexec hst⟩⟩

/-! ## `rb` and the channels -/

/-- What an instruction does to `rb`, `IN` and `OUT`: to at most one of the three, and each has its own
instruction (R93, R94). -/
inductive PortEffect (i : Instr) (s t : State) : Prop where
  | unchanged : t.rb = s.rb → t.inCh = s.inCh → t.outCh = s.outCh → PortEffect i s t
  | adjusted (a : Operand) (v : Word) : i = .adjustRelativeBase a → resolveRead a s = .ok v →
      t.rb.toInt = s.rb.toInt + v.toInt → t.inCh = s.inCh → t.outCh = s.outCh → PortEffect i s t
  | put (a : Operand) (v : Word) : i = .output a → resolveRead a s = .ok v → t.rb = s.rb →
      t.inCh = s.inCh → t.outCh = s.outCh ++ [v] → PortEffect i s t
  | taken (d : Operand) (x : Word) : i = .input d → t.rb = s.rb → s.inCh = x :: t.inCh →
      t.outCh = s.outCh → PortEffect i s t

theorem portEffect_raise (i : Instr) (e : Trap) (s : State) : PortEffect i s (raise e s) :=
  .unchanged rfl rfl rfl

theorem exec_threeOperand_portEffect {mk : Operand → Operand → Operand → Instr} (hmk : mk ∈ threeOperand)
    {a b d : Operand} {s t : State} (h : exec (mk a b d) s = .next t) :
    PortEffect (mk a b d) s t := by
  obtain ⟨op, hop, hexec⟩ := exec_threeOperand hmk
  obtain ⟨_, _, _, _, -, -, -, -, -, rfl⟩ | ⟨e, -, rfl⟩ :=
    storeResult_cases op a b d s t hop ((hexec a b d s).symm.trans h)
  · exact .unchanged rfl rfl rfl
  · exact portEffect_raise _ e s

theorem exec_twoOperand_portEffect {mk : Operand → Operand → Instr} (hmk : mk ∈ twoOperand)
    {a u : Operand} {s t : State} (h : exec (mk a u) s = .next t) : PortEffect (mk a u) s t := by
  obtain ⟨test, hexec⟩ := exec_twoOperand hmk
  obtain ⟨_, _, p, -, -, -, -, rfl⟩ | ⟨e, -, rfl⟩ :=
    jumpWhen_cases test a u s t ((hexec a u s).symm.trans h)
  · exact .unchanged rfl rfl rfl
  · exact portEffect_raise _ e s

theorem exec_portEffect {i : Instr} {s t : State} (h : exec i s = .next t) : PortEffect i s t := by
  cases i with
  | add | multiply | lessThan | equals =>
    exact exec_threeOperand_portEffect (by simp [threeOperand]) h
  | jumpIfNotZero | jumpIfZero => exact exec_twoOperand_portEffect (by simp [twoOperand]) h
  | input d =>
    obtain ⟨p, x, xs, -, -, hin, rfl⟩ | ⟨p, -, -, -, rfl⟩ | ⟨e, -, rfl⟩ := execInput_cases d s t h
    · exact .taken d x rfl rfl (by simp [hin]) rfl
    · exact .unchanged rfl rfl rfl
    · exact portEffect_raise _ e s
  | output a =>
    obtain ⟨v, -, ha, rfl⟩ | ⟨e, -, rfl⟩ := execOutput_cases a s t h
    · exact .put a v rfl ha rfl rfl rfl
    · exact portEffect_raise _ e s
  | adjustRelativeBase a =>
    obtain ⟨v, r, -, ha, hr, rfl⟩ | ⟨e, -, rfl⟩ := execAdjustRelativeBase_cases a s t h
    · exact .adjusted a v rfl ha ((add64_ok_iff _ _ _).1 hr) rfl rfl
    · exact portEffect_raise _ e s
  | halt =>
    obtain rfl : halted s = t := Host.Outcome.next.inj h
    exact .unchanged rfl rfl rfl

/-- Settles O21: of the port effects only that of adjust-relative-base writes `rb`. -/
theorem onlyAdjustRelativeBaseWritesRb : Obligations.OnlyAdjustRelativeBaseWritesRb := by
  intro s t h hrb
  obtain ⟨-, ⟨-, rfl⟩ | ⟨-, rfl⟩ | ⟨i, hdec, hexec⟩⟩ := (step_eq_next_iff s t).1 h
  · exact absurd rfl hrb
  · exact absurd rfl hrb
  · cases exec_portEffect hexec with
    | unchanged hkeep => exact absurd hkeep hrb
    | put _ _ _ _ hkeep => exact absurd hkeep hrb
    | taken _ _ _ hkeep => exact absurd hkeep hrb
    | adjusted a v hi ha hsum => exact ⟨a, v, hi ▸ hdec, ha, hsum⟩

/-- Settles O23: of the port effects only output's appends to `OUT`, and only input's takes from `IN`. -/
theorem channelsChangeOnlyByInputAndOutput : Obligations.ChannelsChangeOnlyByInputAndOutput := by
  intro s t h
  obtain ⟨-, ⟨-, rfl⟩ | ⟨-, rfl⟩ | ⟨i, hdec, hexec⟩⟩ := (step_eq_next_iff s t).1 h
  · exact ⟨.inl rfl, .inl rfl⟩
  · exact ⟨.inl rfl, .inl rfl⟩
  · cases exec_portEffect hexec with
    | unchanged _ hin hout => exact ⟨.inl hout, .inl hin⟩
    | adjusted _ _ _ _ _ hin hout => exact ⟨.inl hout, .inl hin⟩
    | put a v hi ha _ hin hout => exact ⟨.inr ⟨a, v, hi ▸ hdec, ha, hout, hin⟩, .inl hin⟩
    | taken d x hi _ hin hout => exact ⟨.inl hout, .inr ⟨d, x, hi ▸ hdec, hin, hout⟩⟩

end Sys2Proof.Machine
end

section
/-! Blocked states (spec/40_cycle_and_operands.md R96): where they stand, how they hold and how they wake. -/

namespace Sys2Proof.Machine

/-! ## Where a Blocked state stands -/

/-- R96 does not speak of the error record and of the channels. -/
theorem BlockedAtInput.congr {s t : State} (h : BlockedAtInput s) (hip : t.ip = s.ip) (hrb : t.rb = s.rb)
    (hmem : t.mem = s.mem) (hst : t.st = s.st) : BlockedAtInput t := by
  simpa only [BlockedAtInput, fetchCells, successor, resolveWrite, hip, hrb, hmem, hst] using h

theorem blockedAtInput_of_st_ne {s : State} (h : s.st ≠ .blocked) : BlockedAtInput s :=
  fun hst => absurd hst h

theorem createFromText_st_ne_blocked (text : List Char) (seeds : List Word) :
    (createFromText text seeds).st ≠ .blocked := by
  unfold createFromText
  split <;> exact nofun

theorem blockedAtInput_hold {s : State} {d : Operand} (hdec : decode (fetchCells s) = .instr (.input d))
    (hE : ¬ ExecuteError (.input d) s) : BlockedAtInput (hold s) := by
  obtain ⟨hip, p, hp⟩ := (not_executeError_input d s).1 hE
  exact fun _ => ⟨d, s.ip + 2, p, hdec, successor_of_le hip, hp⟩

/-- A step blocks only by holding at an input that has passed its checks. -/
theorem step_blockedAtInput {s t : State} (h : step s = .next t) : BlockedAtInput t := by
  obtain ⟨-, ⟨-, rfl⟩ | ⟨-, rfl⟩ | ⟨i, hdec, hexec⟩⟩ := (step_eq_next_iff s t).1 h
  · exact blockedAtInput_of_st_ne nofun
  · exact blockedAtInput_of_st_ne nofun
  · cases exec_outcome hexec with
    | raised | halted => exact blockedAtInput_of_st_ne nofun
    | held d hi hE =>
      subst hi
      exact blockedAtInput_hold hdec hE
    | completed t _ _ _ hc => exact blockedAtInput_of_st_ne (by simp [hc.st_eq])

/-- Settles O28, by induction on how the state is reached: nothing is created Blocked, a step blocks only
at an input, and the host's moves touch the channels only. -/
theorem reachableBlockedStatesStandAtAnInput : Obligations.ReachableBlockedStatesStandAtAnInput := by
  intro s h
  induction h with
  | created text seeds => exact blockedAtInput_of_st_ne (createFromText_st_ne_blocked text seeds)
  | stepped _ hstep => exact step_blockedAtInput hstep
  | fed v _ ih => exact ih.congr rfl rfl rfl rfl
  | collected _ hcollect ih =>
    obtain ⟨-, vs, -, rfl⟩ := (collect_eq_some_iff _ _ _).1 hcollect
    exact ih.congr rfl rfl rfl rfl
  | drained _ hdrain ih =>
    obtain ⟨vs, -, rfl⟩ := (drain_eq_some_iff _ _ _).1 hdrain
    exact ih.congr rfl rfl rfl rfl

/-! ## Holding and waking -/

theorem exec_input_of_empty {d : Operand} {s : State} {p : Nat} (hin : s.inCh = [])
    (hip : s.ip + 2 ≤ maxAddr) (hd : resolveWrite d s = .ok p) :
    exec (.input d) s = .next (hold s) := by
  have hn : successor 1 s = .ok (s.ip + 2) := successor_of_le hip
  simp [exec, execInput, hn, hd, hin]

theorem hold_eq_self {s : State} (h : s.st = .blocked) : hold s = s := by
  rw [hold, ← h]

/-- Settles O29: the step runs the input again, which holds or takes the value. -/
theorem blockedInstanceHoldsUntilAValueArrives : Obligations.BlockedInstanceHoldsUntilAValueArrives := by
  intro s hst hb
  obtain ⟨d, hdec, hE⟩ := hb.decode_input hst
  obtain ⟨hip, p, hp⟩ := (not_executeError_input d s).1 hE
  have hstep : step s = exec (.input d) s := step_of_decode_instr (.inr hst) hdec
  refine ⟨fun hin => ?_, fun x xs hin => ⟨d, p, hdec, hp, ?_⟩⟩
  · rw [hstep, exec_input_of_empty hin hip hp, hold_eq_self hst]
  · rw [hstep, exec_input_of_value hin hip hp]
    simp [goto, memWrite, inTake, hin]

end Sys2Proof.Machine
end

section
/-! An append by the host and a step (spec/40_cycle_and_operands.md R97;
spec/70_reset_and_hazards.md R208). -/

namespace Sys2Proof.Machine

/-! ## What an append leaves as it was -/

@[simp] theorem fetchCells_feed (v : Word) (s : State) : fetchCells (feed v s) = fetchCells s := rfl

@[simp] theorem successor_feed (n : Nat) (v : Word) (s : State) :
    successor n (feed v s) = successor n s := rfl

@[simp] theorem resolveWrite_feed (d : Operand) (v : Word) (s : State) :
    resolveWrite d (feed v s) = resolveWrite d s := rfl

/-! ## A step after an append -/

/-- A concluded step commutes with the append when its effects do. -/
theorem conclude_feed {s t : State} {r : Except Trap State} (v : Word) (h : conclude s r = .next t) :
    conclude (feed v s) (feed v <$> r) = .next (feed v t) := by
  cases r <;> cases h <;> rfl

/-- An input that does not hold has raised, before it looked at the channel, or has taken the head, which an
append leaves in place. -/
theorem execInput_feed {d : Operand} {s t : State} (v : Word) (h : execInput d s = .next t)
    (hst : t.st ≠ .blocked) : execInput d (feed v s) = .next (feed v t) := by
  cases hn : successor 1 s with
  | error e =>
    have hn' : successor 1 (feed v s) = .error e := (successor_feed 1 v s).trans hn
    obtain rfl : raise e s = t := Host.Outcome.next.inj ((conclude_bind_error hn _ s).symm.trans h)
    exact conclude_bind_error hn' _ (feed v s)
  | ok nip =>
    have hn' : successor 1 (feed v s) = .ok nip := (successor_feed 1 v s).trans hn
    cases hd : resolveWrite d s with
    | error e =>
      have hd' : resolveWrite d (feed v s) = .error e := (resolveWrite_feed d v s).trans hd
      obtain rfl : raise e s = t := Host.Outcome.next.inj
        (((conclude_bind_ok hn _ s).trans (conclude_bind_error hd _ s)).symm.trans h)
      exact (conclude_bind_ok hn' _ (feed v s)).trans (conclude_bind_error hd' _ (feed v s))
    | ok p =>
      have hd' : resolveWrite d (feed v s) = .ok p := (resolveWrite_feed d v s).trans hd
      obtain ⟨hip, -⟩ := (successor_ok_iff _ _ _).1 hn
      cases hin : s.inCh with
      | nil =>
        obtain rfl : hold s = t := Host.Outcome.next.inj ((exec_input_of_empty hin hip hd).symm.trans h)
        exact absurd (hold_st s) hst
      | cons x xs =>
        have hin' : (feed v s).inCh = x :: (xs ++ [v]) := by simp [hin]
        obtain rfl := Host.Outcome.next.inj ((exec_input_of_value hin hip hd).symm.trans h)
        refine (exec_input_of_value hin' hip hd').trans ?_
        simp [feed, goto, memWrite, inTake, hin]

/-- An instruction but input reads neither channel, so that the append goes through its checks, which are by
definition those before it, to its effects. -/
theorem exec_feed {i : Instr} {s t : State} (v : Word) (h : exec i s = .next t) (hst : t.st ≠ .blocked) :
    exec i (feed v s) = .next (feed v t) := by
  cases i with
  | input d => exact execInput_feed v h hst
  | add | multiply | lessThan | equals | jumpIfNotZero | jumpIfZero | output | adjustRelativeBase =>
    have hfeed := conclude_feed v h
    simp only [map_bind] at hfeed
    exact hfeed
  | halt =>
    obtain rfl : halted s = t := Host.Outcome.next.inj h
    rfl

/-- Settles O52: the fetch sees no channel, and the instruction fetched commutes with the append. -/
theorem stepCommutesWithFeed : Obligations.StepCommutesWithFeed := by
  intro s t v h hst
  obtain ⟨hactive, hcases⟩ := (step_eq_next_iff s t).1 h
  have hactive' : Active (feed v s) := hactive
  rw [← fetchCells_feed v] at hcases
  obtain ⟨hdec, rfl⟩ | ⟨hdec, rfl⟩ | ⟨i, hdec, hexec⟩ := hcases
  · exact step_of_decode_unknownOpcode hactive' hdec
  · exact step_of_decode_invalidParameterMode hactive' hdec
  · exact (step_of_decode_instr hactive' hdec).trans (exec_feed v hexec hst)

end Sys2Proof.Machine
end

section
/-! The three-operand instructions (spec/41_arithmetic.md R100, R101; spec/44_compare.md R130, R131): the result
once the operands resolve, and what is left unchanged. -/

namespace Sys2Proof.Machine

/-! ## Once the operands resolve -/

/-- What remains of format F3 once its operands resolve: the operation, the write and the successor. -/
theorem storeResult_of_operands_ok (op : Word → Word → Except Trap Word) {a b d : Operand} {s : State}
    {v w : Word} {p : Nat} (hip : s.ip + 4 ≤ maxAddr) (ha : resolveRead a s = .ok v)
    (hb : resolveRead b s = .ok w) (hd : resolveWrite d s = .ok p) :
    storeResult op a b d s =
      conclude s (op v w >>= fun r => .ok (goto (s.ip + 4) (memWrite p r s))) := by
  rw [storeResult, conclude_bind_ok (successor_of_le (n := 3) hip), conclude_bind_ok ha,
    conclude_bind_ok hb, conclude_bind_ok hd]

/-- An operation that narrows the mathematical result `z` stores exactly `z`, or raises. -/
theorem storeResult_exact_or_overflow {op : Word → Word → Except Trap Word} {a b d : Operand} {s : State}
    {v w : Word} {p : Nat} {z : Int} (hop : op v w = narrow z) (hip : s.ip + 4 ≤ maxAddr)
    (ha : resolveRead a s = .ok v) (hb : resolveRead b s = .ok w) (hd : resolveWrite d s = .ok p) :
    (minInt ≤ z ∧ z ≤ maxInt →
      ∃ r : Word, r.toInt = z ∧ storeResult op a b d s = .next (goto (s.ip + 4) (memWrite p r s))) ∧
    (z < minInt ∨ maxInt < z → storeResult op a b d s = .next (raise .arithmeticOverflow s)) := by
  rw [storeResult_of_operands_ok op hip ha hb hd, hop]
  refine ⟨fun ⟨hlo, hhi⟩ => ?exact, fun hout => ?overflow⟩
  case exact =>
    obtain ⟨r, hr, hz⟩ := narrow_exact_of_range hlo hhi
    exact ⟨r, hz, conclude_bind_ok hr _ s⟩
  case overflow => exact conclude_bind_error ((narrow_error_iff z _).2 ⟨rfl, hout⟩) _ s

/-- Settles O30: add is format F3, and `add64` narrows the sum. -/
theorem addStoresTheExactSum : Obligations.AddStoresTheExactSum :=
  fun _ _ _ _ _ _ _ hip ha hb hd => storeResult_exact_or_overflow (op := add64) rfl hip ha hb hd

/-- Settles O31: multiply is format F3, and `mul64` narrows the product. -/
theorem multiplyStoresTheExactProduct : Obligations.MultiplyStoresTheExactProduct :=
  fun _ _ _ _ _ _ _ hip ha hb hd => storeResult_exact_or_overflow (op := mul64) rfl hip ha hb hd

/-! ## The frame -/

theorem exec_threeOperand_cases {mk : Operand → Operand → Operand → Instr} (hmk : mk ∈ threeOperand)
    {a b d : Operand} {s t : State} (h : exec (mk a b d) s = .next t) :
    (∃ p r, resolveWrite d s = .ok p ∧ t = goto (s.ip + 4) (memWrite p r s)) ∨ ∃ e, t = raise e s := by
  obtain ⟨op, hop, hexec⟩ := exec_threeOperand hmk
  obtain ⟨_, _, p, r, -, -, -, hp, -, ht⟩ | ⟨e, -, ht⟩ :=
    storeResult_cases op a b d s t hop ((hexec a b d s).symm.trans h)
  · exact .inl ⟨p, r, hp, ht⟩
  · exact .inr ⟨e, ht⟩

/-- Settles O43: the instruction has written where its target resolves, or has raised, which writes nothing. -/
theorem threeOperandInstructionsFrame : Obligations.ThreeOperandInstructionsFrame := by
  intro mk hmk a b d s t h
  obtain ⟨p, r, hp, rfl⟩ | ⟨e, rfl⟩ := exec_threeOperand_cases hmk h
  · refine ⟨rfl, rfl, rfl, fun _ => rfl, fun p' hp' q hq => ?_, fun hnone => absurd hp (hnone p)⟩
    obtain rfl : p = p' := Except.ok.inj (hp.symm.trans hp')
    exact read_write_of_ne hq s.mem r
  · exact ⟨rfl, rfl, rfl, fun hst => (hst rfl).elim, fun _ _ _ _ => rfl, fun _ _ => rfl⟩

end Sys2Proof.Machine
end

section
/-! input and output (spec/42_io.md R110, R111): what they do once the operand resolves, and the frame of input
and of the instructions without a write target. -/

namespace Sys2Proof.Machine

/-! ## Once the operand resolves -/

/-- Settles O34: on a value the head is taken and written, and an empty channel gives the hold. -/
theorem inputTakesTheOldestValueOrHolds : Obligations.InputTakesTheOldestValueOrHolds := by
  intro d s p hip hd
  refine ⟨fun x xs hin => ?value, fun hin => exec_input_of_empty hin hip hd⟩
  case value =>
    rw [exec_input_of_value hin hip hd]
    simp [goto, memWrite, inTake, hin]

theorem exec_output_of_operand {a : Operand} {s : State} {v : Word} (hip : s.ip + 2 ≤ maxAddr)
    (ha : resolveRead a s = .ok v) : exec (.output a) s = .next (goto (s.ip + 2) (outPut v s)) :=
  (conclude_bind_ok (successor_of_le (n := 1) hip) _ s).trans (conclude_bind_ok ha _ s)

/-- Settles O35: the append and the successor are the only effects. -/
theorem outputAppendsTheValue : Obligations.OutputAppendsTheValue :=
  fun _ _ _ hip ha => exec_output_of_operand hip ha

/-! ## The frame -/

theorem ExecOutcome.err_eq {i : Instr} {s t : State} (h : ExecOutcome i s t) (hst : t.st ≠ .failed) :
    t.err = s.err := by
  cases h with
  | raised => exact absurd rfl hst
  | halted | held => rfl
  | completed t _ _ _ hc => exact hc.err_eq

theorem PortEffect.rb_eq {i : Instr} {s t : State} (h : PortEffect i s t)
    (hi : ∀ a, i ≠ .adjustRelativeBase a) : t.rb = s.rb := by
  cases h with
  | unchanged hrb | put _ _ _ _ hrb | taken _ _ _ hrb => exact hrb
  | adjusted a _ hadjust => exact absurd hadjust (hi a)

theorem PortEffect.inCh_eq {i : Instr} {s t : State} (h : PortEffect i s t)
    (hi : ∀ d, i ≠ .input d) : t.inCh = s.inCh := by
  cases h with
  | unchanged _ hin | adjusted _ _ _ _ _ hin | put _ _ _ _ _ hin => exact hin
  | taken d _ hinput => exact absurd hinput (hi d)

theorem PortEffect.outCh_eq {i : Instr} {s t : State} (h : PortEffect i s t)
    (hi : ∀ a, i ≠ .output a) : t.outCh = s.outCh := by
  cases h with
  | unchanged _ _ hout | adjusted _ _ _ _ _ _ hout | taken _ _ _ _ _ hout => exact hout
  | put a _ houtput => exact absurd houtput (hi a)

/-- Settles O44: input has written its value where its target resolves, or has held or raised, which write
nothing. -/
theorem inputFrame : Obligations.InputFrame := by
  intro d s t h
  obtain ⟨p, x, xs, -, hp, hin, rfl⟩ | ⟨_, -, -, -, rfl⟩ | ⟨e, -, rfl⟩ := execInput_cases d s t h
  · refine ⟨rfl, rfl, fun _ => rfl, .inr rfl, fun p' hp' q hq => ?_, ?_⟩
    · obtain rfl : p = p' := Except.ok.inj (hp.symm.trans hp')
      exact read_write_of_ne hq s.mem x
    · rintro (hnone | hempty)
      · exact absurd hp (hnone p)
      · cases hin.symm.trans hempty
  · exact ⟨rfl, rfl, fun _ => rfl, .inl rfl, fun _ _ _ _ => rfl, fun _ _ => rfl⟩
  · exact ⟨rfl, rfl, fun hst => absurd rfl hst, .inl rfl, fun _ _ _ _ => rfl, fun _ _ => rfl⟩

/-- Settles O45: a changed cell would be a write target's, and `IN`, `OUT`, `rb` and `err` change only by input,
output, adjust-relative-base and an error. -/
theorem nonStoringInstructionsFrame : Obligations.NonStoringInstructionsFrame := by
  intro i s t htarget h
  have hinput (d : Operand) : i ≠ .input d := by
    rintro rfl
    cases htarget
  have hport : PortEffect i s t := exec_portEffect h
  refine ⟨fun q => ?memory, hport.inCh_eq hinput, (exec_outcome h).err_eq, hport.outCh_eq, hport.rb_eq⟩
  case memory =>
    by_contra hne
    obtain ⟨d, hd, -⟩ := (exec_writesOnlyAt h).of_read_ne hne
    cases htarget.symm.trans hd

end Sys2Proof.Machine
end

section
/-! The jumps (spec/43_jumps.md R120 to R122): where they go once both operands resolve. -/

namespace Sys2Proof.Machine

/-! ## The zero test -/

@[simp] theorem isZero_eq_true_iff (v : Word) : isZero v = true ↔ v = 0 := by
  rw [isZero, decide_eq_true_iff, ← Int64.toInt_inj, Int64.toInt_zero]

@[simp] theorem isZero_eq_false_iff (v : Word) : isZero v = false ↔ v ≠ 0 := by
  rw [← Bool.not_eq_true, isZero_eq_true_iff]

/-! ## Once the operands resolve -/

section
variable {test : Word → Bool} {a t : Operand} {s : State} {v w : Word}

/-- What remains of format F2 once its operands resolve: the choice of the target, and the jump to it. -/
theorem jumpWhen_of_operands_ok (hip : s.ip + 3 ≤ maxAddr) (ha : resolveRead a s = .ok v)
    (ht : resolveRead t s = .ok w) :
    jumpWhen test a t s =
      conclude s (jumpTarget (test v) w (s.ip + 3) >>= fun p => .ok (goto p s)) := by
  rw [jumpWhen, conclude_bind_ok (successor_of_le (n := 2) hip), conclude_bind_ok ha, conclude_bind_ok ht]

/-- The target's sign matters only when the jump is taken (R122). -/
theorem jumpWhen_taken_or_not (hip : s.ip + 3 ≤ maxAddr) (ha : resolveRead a s = .ok v)
    (ht : resolveRead t s = .ok w) :
    (test v = true → 0 ≤ w.toInt → jumpWhen test a t s = .next (goto w.toInt.toNat s)) ∧
    (test v = true → w.toInt < 0 →
      jumpWhen test a t s = .next (raise (.negativeAddress w.toInt) s)) ∧
    (test v = false → jumpWhen test a t s = .next (goto (s.ip + 3) s)) := by
  rw [jumpWhen_of_operands_ok hip ha ht]
  refine ⟨fun hv hw => ?taken, fun hv hw => ?negative, fun hv => ?notTaken⟩
  case taken =>
    exact conclude_bind_ok ((jumpTarget_ok_iff _ _ _ _).2 (.inl ⟨hv, (Int.toNat_of_nonneg hw).symm⟩)) _ s
  case negative => exact conclude_bind_error ((jumpTarget_error_iff _ _ _ _).2 ⟨hv, hw, rfl⟩) _ s
  case notTaken => exact conclude_bind_ok ((jumpTarget_ok_iff _ _ _ _).2 (.inr ⟨hv, rfl⟩)) _ s

end

/-- Settles O36: jump-if-not-zero is format F2 with the negated zero test. -/
theorem jumpIfNotZeroGoesToItsTarget : Obligations.JumpIfNotZeroGoesToItsTarget := by
  intro a t s v w hip ha ht
  obtain ⟨htaken, hnegative, hnot⟩ := jumpWhen_taken_or_not (test := fun v => !isZero v) hip ha ht
  exact ⟨fun hv => htaken (by simpa using hv), fun hv => hnegative (by simpa using hv),
    fun hv => hnot (by simpa using hv)⟩

/-- Settles O37: jump-if-zero is format F2 with the zero test. -/
theorem jumpIfZeroGoesToItsTarget : Obligations.JumpIfZeroGoesToItsTarget := by
  intro a t s v w hip ha ht
  obtain ⟨htaken, hnegative, hnot⟩ := jumpWhen_taken_or_not (test := isZero) hip ha ht
  exact ⟨fun hv => htaken ((isZero_eq_true_iff v).2 hv), fun hv => hnegative ((isZero_eq_true_iff v).2 hv),
    fun hv => hnot ((isZero_eq_false_iff v).2 hv)⟩

end Sys2Proof.Machine
end

section
/-! less-than and equals (spec/44_compare.md R130, R131): the comparisons as propositions, and the truth value they
store. -/

namespace Sys2Proof.Machine

/-! ## The stored value -/

theorem truth_eq_ite {c : Bool} {p : Prop} [Decidable p] (h : c = true ↔ p) :
    truth c = if p then 1 else 0 :=
  if_congr h rfl rfl

theorem lessThanValue_eq_ite (v w : Word) : lessThanValue v w = if v.toInt < w.toInt then 1 else 0 :=
  truth_eq_ite decide_eq_true_iff

/-- A word is determined by its signed value, so comparing the integers compares the whole words. -/
theorem equalsValue_eq_ite (v w : Word) : equalsValue v w = if v = w then 1 else 0 :=
  truth_eq_ite (decide_eq_true_iff.trans Int64.toInt_inj)

/-! ## Once the operands resolve -/

/-- Settles O32: less-than is format F3, and its operation raises nothing, so the truth value is stored. -/
theorem lessThanStoresOneOrZero : Obligations.LessThanStoresOneOrZero := by
  intro a b d s v w p hip ha hb hd
  rw [← lessThanValue_eq_ite]
  exact storeResult_of_operands_ok (fun v w => .ok (lessThanValue v w)) hip ha hb hd

/-- Settles O33: as for less-than, with equality of the whole values. -/
theorem equalsStoresOneOrZero : Obligations.EqualsStoresOneOrZero := by
  intro a b d s v w p hip ha hb hd
  rw [← equalsValue_eq_ite]
  exact storeResult_of_operands_ok (fun v w => .ok (equalsValue v w)) hip ha hb hd

end Sys2Proof.Machine
end

section
/-! adjust-relative-base (spec/45_relbase.md R140), once the operand resolves. -/

namespace Sys2Proof.Machine

/-- What is left of adjust-relative-base once its checks of the successor and the operand pass. -/
theorem exec_adjustRelativeBase_of_operand {a : Operand} {s : State} {v : Word} (hip : s.ip + 2 ≤ maxAddr)
    (ha : resolveRead a s = .ok v) :
    exec (.adjustRelativeBase a) s =
      conclude s (add64 s.rb v >>= fun r => .ok (goto (s.ip + 2) (setRb r s))) :=
  (conclude_bind_ok (successor_of_le hip) _ s).trans (conclude_bind_ok ha _ s)

/-- Settles O38: the one check that remains is the range of the exact sum (R10). -/
theorem adjustRelativeBaseAddsTheOperand : Obligations.AdjustRelativeBaseAddsTheOperand := by
  intro a s v hip ha
  rw [exec_adjustRelativeBase_of_operand hip ha]
  obtain ⟨hsum, hoverflow⟩ := (checkedArithmeticIsExactOrOverflows s.rb v).1
  refine ⟨fun hrange => ?inRange, fun hout => ?outside⟩
  case inRange =>
    obtain ⟨r, hadd, hr⟩ := hsum hrange
    exact ⟨r, hr, conclude_bind_ok hadd _ s⟩
  case outside => exact conclude_bind_error (hoverflow hout) _ s

end Sys2Proof.Machine
end

section
/-! halt (spec/46_halt.md R150): it ends the run and writes nothing else. -/

namespace Sys2Proof.Machine

/-- Halt has no check (R84): unlike every other instruction it does not end in `conclude`, so neither the
successor address nor an operand can stop it. -/
theorem exec_halt (s : State) : exec .halt s = .next (halted s) := rfl

/-- Settles O39: the state `halted` is the old one with `st` replaced. -/
theorem haltOnlyHalts : Obligations.HaltOnlyHalts := by
  intro s
  rw [exec_halt, halted]

end Sys2Proof.Machine
end

section
/-! The errors of spec/60_exceptions.md R161 to R164: what taking one writes, and the conditions for UnknownOpcode,
InvalidParameterMode and InvalidWriteTarget. -/

namespace Sys2Proof.Machine

/-- Settles O15: `raise` writes `st` and `err`, and a Failed core has no step. -/
theorem raiseWritesOnlyStatusAndError : Obligations.RaiseWritesOnlyStatusAndError := by
  intro e s
  refine ⟨rfl, rfl, rfl, rfl, rfl, rfl, rfl, rfl, step_of_failed (raise_st e s), ?unknownOpcode,
    ?invalidParameterMode, ?invalidWriteTarget, ?negativeAddress, ?malformedProgramText, ?arithmeticOverflow⟩
  case negativeAddress =>
    rintro a rfl
    exact ⟨rfl, rfl, rfl⟩
  case unknownOpcode | invalidParameterMode | invalidWriteTarget | malformedProgramText | arithmeticOverflow =>
    rintro rfl
    exact ⟨rfl, rfl, rfl⟩

/-! ## Decode errors -/

theorem notMem_opcodeTable {c : Nat} (h : c = 0 ∨ (10 ≤ c ∧ c ≤ 98)) (n : Nat) :
    (c, n) ∉ opcodeTable := by
  simp only [opcodeTable, List.mem_cons, Prod.mk.injEq, List.not_mem_nil, or_false]
  omega

/-- Settles O13: the decoder's verdict is UnknownOpcode, which the step raises before it looks at anything else. -/
theorem unknownOpcodeIsRaised : Obligations.UnknownOpcodeIsRaised := by
  intro s hactive w hw
  exact step_of_decode_unknownOpcode hactive
    ((decode_eq_unknownOpcode_iff _).2 (hw.imp_right notMem_opcodeTable))

/-- Settles O14: an own digit above 2 is the decoder's condition for InvalidParameterMode, and the cause of every
such error. -/
theorem invalidParameterModeIsRaised : Obligations.InvalidParameterModeIsRaised := by
  intro s n hactive w hw hn
  refine ⟨fun k hk hdigit => ?raised, fun hmodes t h hst hkind => ?never⟩
  case raised =>
    exact step_of_decode_invalidParameterMode hactive
      ((decode_eq_invalidParameterMode_iff _).2 ⟨hw, n, k, hn, hk, hdigit⟩)
  case never =>
    have hcause := everyErrorHasItsCause s t h hst
    simp only [hkind] at hcause
    obtain ⟨m, k, hm, hk, hdigit⟩ := hcause
    obtain rfl : m = n := mem_opcodeTable_unique hm hn
    exact (hmodes k hk).not_gt hdigit

/-! ## Immediate write targets -/

theorem trapKind_eq_invalidWriteTarget {e : Trap} (h : trapKind e = .invalidWriteTarget) :
    e = .invalidWriteTarget := by
  cases e with
  | invalidWriteTarget => rfl
  | unknownOpcode | invalidParameterMode | negativeAddress | malformedProgramText | arithmeticOverflow => cases h

theorem not_addressTrap_invalidWriteTarget (o : Operand) (s : State) : ¬ AddressTrap o s .invalidWriteTarget :=
  nofun

/-- Of the causes of an instruction's error only an immediate write target is InvalidWriteTarget. -/
theorem InstrTrap.immediate_target {i : Instr} {s : State} (h : InstrTrap i s .invalidWriteTarget) :
    ∃ d, i.writeTarget = some d ∧ d.mode = .immediate := by
  cases h with
  | operand o _ _ ha => exact absurd ha (not_addressTrap_invalidWriteTarget o s)
  | writeTarget d htarget himm => exact ⟨d, htarget, himm⟩

/-- Settles O42: the target's turn comes after the operands resolved, and its error has no other cause. -/
theorem immediateWriteTargetRaises : Obligations.ImmediateWriteTargetRaises := by
  refine ⟨?threeOperand, ?input, ?never⟩
  case threeOperand =>
    intro mk hmk a b c v w s hip ha hb
    obtain ⟨hthree, -, -⟩ := firstOperandFaultIsRaised s .invalidWriteTarget
    obtain ⟨-, -, htarget⟩ := hthree mk hmk a b ⟨.immediate, c⟩ v w hip
    exact htarget ha hb (resolveWrite_immediate c s)
  case input =>
    intro c s hip
    obtain ⟨-, -, hone⟩ := firstOperandFaultIsRaised s .invalidWriteTarget
    obtain ⟨-, -, htarget⟩ := hone ⟨.immediate, c⟩ hip
    exact htarget (resolveWrite_immediate c s)
  case never =>
    intro i s t htarget h hst hkind
    obtain ⟨e, he, rfl⟩ := exec_failed h hst
    obtain rfl : e = .invalidWriteTarget := trapKind_eq_invalidWriteTarget hkind
    obtain ⟨d, hd, himm⟩ := he.immediate_target
    exact htarget d hd himm

end Sys2Proof.Machine
end

section
/-! A delivery, core by core (spec/60_exceptions.md R184, R189): what the stepped core keeps, what the reader
of its `OUT` receives, and that the deliveries of two cores do not depend on their order. -/

namespace Sys2Proof.Machine

/-! ## The wiring -/

theorem network_ext {n m : Network} (hlink : n.link = m.link) (hstopped : n.stopped = m.stopped)
    (hcores : ∀ k : Nat, n.cores[k]? = m.cores[k]?) : n = m := by
  cases n
  cases m
  exact (Network.mk.injEq ..).mpr ⟨List.ext_getElem? hcores, hlink, hstopped⟩

theorem reader_congr {n n' : Network} (h : n'.link = n.link) (i : Nat) : n'.reader i = n.reader i := by
  rw [Network.reader, Network.reader, h]

theorem Network.WellWired.writer_unique {n : Network} (h : n.WellWired) {i k j : Nat}
    (hi : n.reader i = some j) (hk : n.reader k = some j) : i = k := by
  obtain ⟨-, -, -, hwriter, -⟩ := h
  exact hwriter i k j hi hk

theorem Network.WellWired.outCh_eq_nil {n : Network} (h : n.WellWired) {i j : Nat} {s : State}
    (hr : n.reader i = some j) (hs : n.cores[i]? = some s) : s.outCh = [] := by
  obtain ⟨-, -, -, -, hout⟩ := h
  exact hout i j s hr hs

/-! ## What a core keeps and what the others receive -/

/-- What core `i` keeps of its next state `t`: the outputs of a linked core are its reader's. -/
def Network.kept (n : Network) (i : Nat) (t : State) : State :=
  match n.reader i with
  | none => t
  | some _ => { t with outCh := [] }

/-- The state `s` of core `k` once core `i` has put out `vs`. -/
def Network.receive (n : Network) (i k : Nat) (vs : List Word) (s : State) : State :=
  if n.reader i = some k then feedAll vs s else s

theorem deliver_getElem?_self {n : Network} {i : Nat} (t : State) (hi : i < n.cores.length) :
    (n.deliver i t).cores[i]? = some (n.receive i i t.outCh (n.kept i t)) := by
  rw [deliver_getElem? n i i t hi, if_pos rfl]
  rfl

theorem deliver_getElem?_other {n : Network} {i k : Nat} (t : State) (hi : i < n.cores.length) (hk : k ≠ i) :
    (n.deliver i t).cores[k]? = n.cores[k]?.map (n.receive i k t.outCh) := by
  rw [deliver_getElem? n i k t hi, if_neg hk]
  rfl

@[simp] theorem kept_st (n : Network) (i : Nat) (t : State) : (n.kept i t).st = t.st := by
  unfold Network.kept
  split <;> rfl

theorem kept_outCh_of_linked {n : Network} {i j : Nat} (t : State) (h : n.reader i = some j) :
    (n.kept i t).outCh = [] := by
  simp [Network.kept, h]

theorem receive_of_reader {n : Network} {i k : Nat} (h : n.reader i = some k) (vs : List Word) (s : State) :
    n.receive i k vs s = feedAll vs s :=
  if_pos h

theorem receive_of_not_reader {n : Network} {i k : Nat} (h : n.reader i ≠ some k) (vs : List Word)
    (s : State) : n.receive i k vs s = s :=
  if_neg h

@[simp] theorem receive_st (n : Network) (i k : Nat) (vs : List Word) (s : State) :
    (n.receive i k vs s).st = s.st := by
  unfold Network.receive
  split <;> rfl

@[simp] theorem receive_outCh (n : Network) (i k : Nat) (vs : List Word) (s : State) :
    (n.receive i k vs s).outCh = s.outCh := by
  unfold Network.receive
  split <;> rfl

theorem kept_receive (n : Network) (i j k : Nat) (vs : List Word) (s : State) :
    n.kept i (n.receive j k vs s) = n.receive j k vs (n.kept i s) := by
  unfold Network.kept Network.receive
  split <;> split <;> rfl

/-- Two cores write to one channel in no legal wiring, so what they put out is received in any order. -/
theorem receive_comm {n : Network} (hn : n.WellWired) {i j : Nat} (hij : i ≠ j) (k : Nat)
    (vs ws : List Word) (s : State) :
    n.receive i k vs (n.receive j k ws s) = n.receive j k ws (n.receive i k vs s) := by
  by_cases hi : n.reader i = some k
  · have hj : n.reader j ≠ some k := fun hj => hij (hn.writer_unique hi hj)
    rw [receive_of_not_reader hj, receive_of_not_reader hj]
  · rw [receive_of_not_reader hi, receive_of_not_reader hi]

/-! ## A delivery after another -/

@[simp] theorem reader_deliver (n : Network) (i k : Nat) (t : State) :
    (n.deliver i t).reader k = n.reader k :=
  reader_congr (deliver_link n i t) k

@[simp] theorem kept_deliver (n : Network) (i k : Nat) (t u : State) :
    (n.deliver i t).kept k u = n.kept k u := by
  unfold Network.kept
  rw [reader_deliver]

@[simp] theorem receive_deliver (n : Network) (i k l : Nat) (t : State) :
    (n.deliver i t).receive k l = n.receive k l := by
  funext vs s
  unfold Network.receive
  rw [reader_deliver]

@[simp] theorem isStopped_deliver (n : Network) (i k : Nat) (t : State) :
    (n.deliver i t).isStopped k = n.isStopped k := by
  rw [Network.isStopped, Network.isStopped, deliver_stopped]

/-- Core `k` after `t` is delivered at `i`, and then `u` at `j` with what the first delivery brought it. -/
theorem deliver_deliver_getElem? {n : Network} {i j : Nat} (hi : i < n.cores.length)
    (hj : j < n.cores.length) (t u : State) (k : Nat) :
    ((n.deliver i t).deliver j (n.receive i j t.outCh u)).cores[k]? =
      if k = j then some (n.receive j j u.outCh (n.receive i j t.outCh (n.kept j u)))
      else if k = i then some (n.receive j i u.outCh (n.receive i i t.outCh (n.kept i t)))
      else n.cores[k]?.map fun s => n.receive j k u.outCh (n.receive i k t.outCh s) := by
  have hj' : j < (n.deliver i t).cores.length := (deliver_length n i t).symm ▸ hj
  split
  next hk => rw [hk, deliver_getElem?_self _ hj', receive_deliver, kept_deliver, receive_outCh, kept_receive]
  next hk =>
    rw [deliver_getElem?_other _ hj' hk, receive_deliver, receive_outCh]
    split
    next hk => rw [hk, deliver_getElem?_self t hi, Option.map_some]
    next hk => rw [deliver_getElem?_other t hi hk, Option.map_map, Function.comp_def]

/-- Deliveries of two cores lead to the same network in either order. -/
theorem deliver_comm {n : Network} (hn : n.WellWired) {i j : Nat} (hij : i ≠ j) (hi : i < n.cores.length)
    (hj : j < n.cores.length) (t u : State) :
    (n.deliver i t).deliver j (n.receive i j t.outCh u) =
      (n.deliver j u).deliver i (n.receive j i u.outCh t) := by
  refine network_ext (by simp) (by simp) fun k => ?_
  have hreceive := receive_comm hn hij
  rw [deliver_deliver_getElem? hi hj, deliver_deliver_getElem? hj hi]
  by_cases hkj : k = j
  · have hki : k ≠ i := fun hki => hij (hki.symm.trans hkj)
    rw [if_pos hkj, if_neg hki, if_pos hkj, hreceive]
  · by_cases hki : k = i
    · rw [if_neg hkj, if_pos hki, if_pos hki, hreceive]
    · simp only [if_neg hkj, if_neg hki, hreceive]

/-! ## A step after a delivery -/

theorem step_feedAll {s t : State} (vs : List Word) (h : step s = .next t) (hst : t.st ≠ .blocked) :
    step (feedAll vs s) = .next (feedAll vs t) := by
  induction vs generalizing s t with
  | nil => simpa [feedAll] using h
  | cons v vs ih =>
    have hfed := ih (stepCommutesWithFeed s t v h hst) hst
    simpa [feedAll, feed] using hfed

theorem mayStep_feedAll {s : State} (vs : List Word) (h : mayStep s = true) :
    mayStep (feedAll vs s) = true := by
  rw [mayStep_iff] at h ⊢
  simp only [feedAll_st, feedAll_inCh]
  exact h.imp_right fun ⟨hst, hin⟩ => ⟨hst, List.append_ne_nil_of_left_ne_nil hin vs⟩

theorem step_receive {n : Network} {i k : Nat} {s t : State} (vs : List Word) (h : step s = .next t)
    (hst : t.st ≠ .blocked) : step (n.receive i k vs s) = .next (n.receive i k vs t) := by
  unfold Network.receive
  split
  · exact step_feedAll vs h hst
  · exact h

theorem mayStep_receive {n : Network} {i k : Nat} {s : State} (vs : List Word) (h : mayStep s = true) :
    mayStep (n.receive i k vs s) = true := by
  unfold Network.receive
  split
  · exact mayStep_feedAll vs h
  · exact h

/-- A step that is no hold is still there after another core's delivery, with what that brought. -/
theorem stepCore_deliver {n : Network} {i j : Nat} {s u : State} (hij : i ≠ j) (hi : i < n.cores.length)
    (t : State) (hs : n.cores[j]? = some s) (hmay : mayStep s = true) (hrun : n.isStopped j = false)
    (hu : step s = .next u) (hst : u.st ≠ .blocked) :
    (n.deliver i t).stepCore j = some ((n.deliver i t).deliver j (n.receive i j t.outCh u)) := by
  refine (stepCore_eq_some_iff _ _ _).2 ⟨n.receive i j t.outCh s, _, ?_, mayStep_receive _ hmay, ?_,
    step_receive _ hu hst, rfl⟩
  · rw [deliver_getElem?_other t hi hij.symm, hs, Option.map_some]
  · rw [isStopped_deliver, hrun]

/-- The run state of a core after its own step is that of its next state. -/
theorem st_of_deliver_self {n : Network} {i : Nat} {s t : State} (hi : i < n.cores.length)
    (hs : (n.deliver i t).cores[i]? = some s) : s.st = t.st := by
  rw [deliver_getElem?_self t hi] at hs
  rw [← Option.some.inj hs, receive_st, kept_st]

/-- Settles O59: each step is still there after the other's delivery, and the deliveries commute. -/
theorem stepsOfTwoInstancesCommute : Obligations.StepsOfTwoInstancesCommute := by
  intro n m k i j s t hn hij hm hk hs hst ht htt
  obtain ⟨si, ti, hsi, hmayi, hruni, hstepi, rfl⟩ := (stepCore_eq_some_iff _ _ _).1 hm
  obtain ⟨sj, tj, hsj, hmayj, hrunj, hstepj, rfl⟩ := (stepCore_eq_some_iff _ _ _).1 hk
  obtain ⟨hi, -⟩ := List.getElem?_eq_some_iff.1 hsi
  obtain ⟨hj, -⟩ := List.getElem?_eq_some_iff.1 hsj
  rw [st_of_deliver_self hi hs] at hst
  rw [st_of_deliver_self hj ht] at htt
  refine ⟨_, stepCore_deliver hij hi ti hsj hmayj hrunj hstepj htt, ?_⟩
  rw [deliver_comm hn hij hi hj]
  exact stepCore_deliver hij.symm hj tj hsi hmayi hruni hstepi hst

/-- Settles O53: the output is what the writer puts out, and the reader receives it. -/
theorem linkedOutputArrivesAtTheReader : Obligations.LinkedOutputArrivesAtTheReader := by
  intro n i j s r a v hn hij hr hs hrj hmay hrun hdec hip ha
  obtain ⟨hi, -⟩ := List.getElem?_eq_some_iff.1 hs
  have hout : s.outCh = [] := hn.outCh_eq_nil hr hs
  have hactive : Active s := ((mayStep_iff s).1 hmay).imp_right And.left
  have hstep : step s = .next (goto (s.ip + 2) (outPut v s)) :=
    (step_of_decode_instr hactive hdec).trans (exec_output_of_operand hip ha)
  refine ⟨_, (stepCore_eq_some_iff _ _ _).2 ⟨s, _, hs, hmay, hrun, hstep, rfl⟩, ?reader, ?writer⟩
  case reader =>
    rw [deliver_getElem?_other _ hi hij.symm, hrj, Option.map_some, receive_of_reader hr]
    simp [feedAll, hout]
  case writer =>
    have hself : n.reader i ≠ some i := fun h => hij (Option.some.inj (h.symm.trans hr))
    rw [deliver_getElem?_self _ hi, receive_of_not_reader hself]
    simp [Network.kept, hr, goto, outPut, hout]

end Sys2Proof.Machine
end

section
/-! The moves of the host (spec/70_reset_and_hazards.md R208; spec/60_exceptions.md R181 to R185): the role each
needs, and that it touches channels and stop flags only. -/

namespace Sys2Proof.Machine

/-! ## What a host move can do -/

/-- The effect of each host move, with the role it needs and the value it takes. -/
inductive HostEffect (n : Network) : HostMove → Network → Prop where
  | fed (j : Nat) (v : Word) : (∀ i, n.reader i ≠ some j) → j < n.cores.length →
      HostEffect n (.feed j v) { n with cores := n.cores.modify j (feed v) }
  | drained (i : Nat) (s : State) (vs : List Word) : n.cores[i]? = some s → n.reader i = none →
      HostEffect n (.drain i) { n with cores := n.cores.set i { s with outCh := vs } }
  | collected (j : Nat) (s : State) (vs : List Word) : n.cores[j]? = some s → s.st = .halted →
      HostEffect n (.collect j) { n with cores := n.cores.set j { s with inCh := vs } }
  | stopped (i : Nat) : HostEffect n (.stop i) { n with stopped := n.stopped.set i true }

theorem hostAct_effect {n n' : Network} {h : HostMove} (hact : n.hostAct h = some n') :
    HostEffect n h n' := by
  cases h with
  | feed j v =>
    obtain ⟨hj, hrole, rfl⟩ := (hostFeed_eq_some_iff n n' j v).1 hact
    exact .fed j v hrole hj
  | drain i =>
    obtain ⟨⟨v, n''⟩, hdrain, rfl⟩ := Option.map_eq_some_iff.1 hact
    obtain ⟨s, vs, hs, hrole, -, rfl⟩ := (hostDrain_eq_some_iff n n'' i v).1 hdrain
    exact .drained i s vs hs hrole
  | collect j =>
    obtain ⟨⟨v, n''⟩, hcollect, rfl⟩ := Option.map_eq_some_iff.1 hact
    obtain ⟨s, vs, hs, hst, -, rfl⟩ := (hostCollect_eq_some_iff n n'' j v).1 hcollect
    exact .collected j s vs hs hst
  | stop i =>
    obtain rfl : n.hostStop i = n' := Option.some.inj hact
    exact .stopped i

/-! ## Networks alike but for channels and stop flags -/

/-- The registers, memory, run state and error record of a core, its channels emptied. -/
def withoutChannels (s : State) : State := { s with inCh := [], outCh := [] }

/-- From `n` to `n'` only the content of channels and the stop flags change. -/
def ChannelsOnly (n n' : Network) : Prop :=
  n'.link = n.link ∧ n'.cores.map withoutChannels = n.cores.map withoutChannels

theorem ChannelsOnly.refl (n : Network) : ChannelsOnly n n := ⟨rfl, rfl⟩

theorem ChannelsOnly.trans {n m k : Network} (h : ChannelsOnly n m) (h' : ChannelsOnly m k) :
    ChannelsOnly n k := by
  obtain ⟨hlink, hcores⟩ := h
  obtain ⟨hlink', hcores'⟩ := h'
  exact ⟨hlink'.trans hlink, hcores'.trans hcores⟩

theorem ChannelsOnly.link_eq {n n' : Network} (h : ChannelsOnly n n') : n'.link = n.link := by
  obtain ⟨hlink, -⟩ := h
  exact hlink

theorem ChannelsOnly.length_eq {n n' : Network} (h : ChannelsOnly n n') :
    n'.cores.length = n.cores.length := by
  obtain ⟨-, hcores⟩ := h
  simpa using congrArg List.length hcores

theorem ChannelsOnly.core {n n' : Network} (h : ChannelsOnly n n') {k : Nat} {s : State}
    (hs : n.cores[k]? = some s) : ∃ t : State, n'.cores[k]? = some t ∧
      t.ip = s.ip ∧ t.rb = s.rb ∧ t.mem = s.mem ∧ t.st = s.st ∧ t.err = s.err := by
  obtain ⟨-, hcores⟩ := h
  have hk : (n'.cores.map withoutChannels)[k]? = some (withoutChannels s) := by
    rw [hcores, List.getElem?_map, hs, Option.map_some]
  rw [List.getElem?_map, Option.map_eq_some_iff] at hk
  obtain ⟨t, ht, heq⟩ := hk
  refine ⟨t, ht, ?_⟩
  simpa [withoutChannels] using heq

theorem map_modify_of_forall_eq {α β : Type} {f : α → α} {g : α → β} (h : ∀ a, g (f a) = g a)
    (l : List α) (k : Nat) : (l.modify k f).map g = l.map g := by
  refine List.ext_getElem? fun p => ?_
  rw [List.getElem?_map, List.getElem?_modify, List.getElem?_map]
  cases l[p]? with
  | none => rfl
  | some a => by_cases hk : k = p <;> simp [hk, h]

theorem map_set_of_eq {α β : Type} {g : α → β} {l : List α} {k : Nat} {a b : α} (ha : l[k]? = some a)
    (h : g b = g a) : (l.set k b).map g = l.map g := by
  have hk : (l.map g)[k]? = some (g b) := by rw [List.getElem?_map, ha, Option.map_some, h]
  obtain ⟨hlt, hget⟩ := List.getElem?_eq_some_iff.1 hk
  rw [List.map_set, ← hget, List.set_getElem_self]

theorem HostEffect.channelsOnly {n n' : Network} {h : HostMove} (he : HostEffect n h n') :
    ChannelsOnly n n' := by
  cases he with
  | fed j v => exact ⟨rfl, map_modify_of_forall_eq (f := feed v) (fun _ => rfl) _ _⟩
  | drained i s vs hs => exact ⟨rfl, map_set_of_eq hs rfl⟩
  | collected j s vs hs => exact ⟨rfl, map_set_of_eq hs rfl⟩
  | stopped i => exact ⟨rfl, rfl⟩

/-! ## The roles -/

section
variable {n : Network} {j : Nat} {s : State}

theorem exists_hostFeed_iff (hs : n.cores[j]? = some s) (v : Word) :
    (∃ n', n.hostFeed j v = some n') ↔ ∀ i, n.reader i ≠ some j := by
  obtain ⟨hj, -⟩ := List.getElem?_eq_some_iff.1 hs
  simp [hostFeed_eq_some_iff, hj]

theorem exists_hostDrain_iff (hs : n.cores[j]? = some s) :
    (∃ p, n.hostDrain j = some p) ↔ n.reader j = none ∧ s.outCh ≠ [] := by
  simp [hostDrain_eq_some_iff, hs, List.ne_nil_iff_exists_cons]

theorem exists_hostCollect_iff (hs : n.cores[j]? = some s) :
    (∃ p, n.hostCollect j = some p) ↔ s.st = .halted ∧ s.inCh ≠ [] := by
  simp [hostCollect_eq_some_iff, hs, List.ne_nil_iff_exists_cons]

end

theorem getElem?_set_self_and_ne {α : Type} {l : List α} {j : Nat} {a : α} (b : α) (ha : l[j]? = some a) :
    (l.set j b)[j]? = some b ∧ ∀ k : Nat, k ≠ j → (l.set j b)[k]? = l[k]? := by
  obtain ⟨hj, -⟩ := List.getElem?_eq_some_iff.1 ha
  exact ⟨List.getElem?_set_self hj, fun k hk => List.getElem?_set_ne hk.symm⟩

/-- Settles O56: each move is enabled exactly in its role, where its effect is the one the statement gives; the
last clause is `HostEffect.channelsOnly`. -/
theorem hostMovesNeedTheirRoles : Obligations.HostMovesNeedTheirRoles := by
  refine ⟨?feed, ?drain, ?collect, ?channelsOnly⟩
  case feed =>
    intro n j v s hs
    refine ⟨exists_hostFeed_iff hs v, fun n' hfeed => ?_⟩
    obtain ⟨hj, -, rfl⟩ := (hostFeed_eq_some_iff n n' j v).1 hfeed
    refine ⟨?_, fun k hk => List.getElem?_modify_ne _ _ hk.symm⟩
    simp [hs, feed]
  case drain =>
    intro n i s hs
    refine ⟨exists_hostDrain_iff hs, fun v n' hdrain => ?_⟩
    obtain ⟨s', vs, hs', -, hout, rfl⟩ := (hostDrain_eq_some_iff n n' i v).1 hdrain
    obtain rfl : s = s' := Option.some.inj (hs.symm.trans hs')
    exact ⟨vs, hout, getElem?_set_self_and_ne _ hs⟩
  case collect =>
    intro n j s hs
    refine ⟨exists_hostCollect_iff hs, fun v n' hcollect => ?_⟩
    obtain ⟨s', vs, hs', -, hin, rfl⟩ := (hostCollect_eq_some_iff n n' j v).1 hcollect
    obtain rfl : s = s' := Option.some.inj (hs.symm.trans hs')
    exact ⟨vs, hin, getElem?_set_self_and_ne _ hs⟩
  case channelsOnly =>
    intro n n' h hact
    have hchannels := (hostAct_effect hact).channelsOnly
    exact ⟨hchannels.link_eq, hchannels.length_eq, fun k s => hchannels.core⟩

end Sys2Proof.Machine
end

section
/-! The legality of a wiring (spec/60_exceptions.md R183, R184): a created network has it, and every move of every
agent keeps it. -/

namespace Sys2Proof.Machine

/-! ## Creation -/

@[simp] theorem createFromText_outCh (text : List Char) (seeds : List Word) :
    (createFromText text seeds).outCh = [] := by
  unfold createFromText
  split <;> rfl

@[simp] theorem createFromText_inCh (text : List Char) (seeds : List Word) :
    (createFromText text seeds).inCh = seeds := by
  unfold createFromText
  split <;> rfl

theorem create_getElem? (members : List (List Char × List Word)) (link : List (Option Nat)) (k : Nat) :
    (Network.create members link).cores[k]? = members[k]?.map fun m => createFromText m.1 m.2 :=
  List.getElem?_map

section
variable {members : List (List Char × List Word)} {link : List (Option Nat)}

theorem wellWired_create (hlen : link.length = members.length)
    (hrange : ∀ i j : Nat, link[i]? = some (some j) → j < members.length)
    (hwriter : ∀ i k j : Nat, link[i]? = some (some j) → link[k]? = some (some j) → i = k) :
    (Network.create members link).WellWired := by
  have hreader (i j : Nat) : (Network.create members link).reader i = some j ↔ link[i]? = some (some j) :=
    reader_eq_some_iff _ i j
  have hcores : (Network.create members link).cores.length = members.length := List.length_map _
  simp only [Network.WellWired, hreader, hcores]
  refine ⟨hlen, List.length_map _, hrange, hwriter, fun i j s _ hs => ?_⟩
  rw [create_getElem?, Option.map_eq_some_iff] at hs
  obtain ⟨m, -, rfl⟩ := hs
  exact createFromText_outCh m.1 m.2

theorem outQueue_create {i j : Nat} {text : List Char} {seeds : List Word}
    (hr : link[i]? = some (some j)) (hj : members[j]? = some (text, seeds)) :
    (Network.create members link).outQueue i = seeds := by
  have hreader : (Network.create members link).reader i = some j := (reader_eq_some_iff _ i j).2 hr
  simp [Network.outQueue, hreader, create_getElem?, hj]

end

/-! ## Moves -/

/-- A move that keeps the links and the numbers of cores and flags keeps the wiring legal if it puts nothing
in a linked writer's own list. -/
theorem Network.WellWired.congr {n n' : Network} (hn : n.WellWired) (hlink : n'.link = n.link)
    (hcores : n'.cores.length = n.cores.length) (hstopped : n'.stopped.length = n.stopped.length)
    (hout : ∀ (i j : Nat) (s : State), n.reader i = some j → n'.cores[i]? = some s → s.outCh = []) :
    n'.WellWired := by
  obtain ⟨hl, hs, hrange, hwriter, -⟩ := hn
  simp only [Network.WellWired, hlink, hcores, hstopped, reader_congr hlink]
  exact ⟨hl, hs, hrange, hwriter, hout⟩

theorem wellWired_deliver {n : Network} (hn : n.WellWired) {i : Nat} (hi : i < n.cores.length) (t : State) :
    (n.deliver i t).WellWired := by
  refine hn.congr (deliver_link n i t) (deliver_length n i t) (by rw [deliver_stopped])
    fun k j s hr hs => ?_
  by_cases hk : k = i
  · subst hk
    rw [deliver_getElem?_self t hi] at hs
    rw [← Option.some.inj hs, receive_outCh, kept_outCh_of_linked t hr]
  · rw [deliver_getElem?_other t hi hk, Option.map_eq_some_iff] at hs
    obtain ⟨s₀, hs₀, rfl⟩ := hs
    rw [receive_outCh, hn.outCh_eq_nil hr hs₀]

theorem getElem?_outCh_of_map_eq {l l' : List State} (h : l'.map State.outCh = l.map State.outCh) {k : Nat}
    {s : State} (hs : l'[k]? = some s) : ∃ s₀, l[k]? = some s₀ ∧ s₀.outCh = s.outCh := by
  rw [← Option.map_eq_some_iff, ← List.getElem?_map, ← h, List.getElem?_map, hs, Option.map_some]

/-- What a host move leaves in the own list of a linked writer: the host drains an unlinked one only. -/
theorem HostEffect.linked_outCh {n n' : Network} {h : HostMove} (he : HostEffect n h n') {i j : Nat}
    {s : State} (hr : n.reader i = some j) (hs : n'.cores[i]? = some s) :
    ∃ s₀, n.cores[i]? = some s₀ ∧ s₀.outCh = s.outCh := by
  cases he with
  | fed k v =>
    have hmap : (n.cores.modify k (feed v)).map State.outCh = n.cores.map State.outCh :=
      map_modify_of_forall_eq (f := feed v) (fun _ => rfl) _ _
    exact getElem?_outCh_of_map_eq hmap hs
  | collected k u vs hu =>
    have hmap : (n.cores.set k { u with inCh := vs }).map State.outCh = n.cores.map State.outCh :=
      map_set_of_eq hu rfl
    exact getElem?_outCh_of_map_eq hmap hs
  | stopped k => exact ⟨s, hs, rfl⟩
  | drained k u vs hu hnone =>
    have hk : k ≠ i := by
      rintro rfl
      cases hnone.symm.trans hr
    rw [List.getElem?_set_ne hk] at hs
    exact ⟨s, hs, rfl⟩

theorem HostEffect.stopped_length {n n' : Network} {h : HostMove} (he : HostEffect n h n') :
    n'.stopped.length = n.stopped.length := by
  cases he with
  | fed | drained | collected => rfl
  | stopped i => exact List.length_set

theorem HostEffect.wellWired {n n' : Network} {h : HostMove} (he : HostEffect n h n') (hn : n.WellWired) :
    n'.WellWired := by
  have hchannels := he.channelsOnly
  refine hn.congr hchannels.link_eq hchannels.length_eq he.stopped_length fun i j s hr hs => ?_
  obtain ⟨s₀, hs₀, hout⟩ := he.linked_outCh hr hs
  rw [← hout, hn.outCh_eq_nil hr hs₀]

/-- Settles O55: creation gives every core an empty `OUT` and its seeds; a step delivers, and a host move has a
host move's effect. -/
theorem everyNetworkStepKeepsTheWiring : Obligations.EveryNetworkStepKeepsTheWiring := by
  refine ⟨fun members link hlen hrange hwriter => ?created, fun n n' m hn hact => ?moved⟩
  case created =>
    exact ⟨wellWired_create hlen hrange hwriter, fun i j text seeds => outQueue_create⟩
  case moved =>
    cases m with
    | step i =>
      obtain ⟨s, t, hs, -, -, -, rfl⟩ := (stepCore_eq_some_iff n n' i).1 hact
      obtain ⟨hi, -⟩ := List.getElem?_eq_some_iff.1 hs
      exact wellWired_deliver hn hi t
    | host h => exact (hostAct_effect hact).wellWired hn

end Sys2Proof.Machine
end

section
/-! The run of a network (spec/60_exceptions.md R187 to R189): after a failure, and in a deadlock. -/

namespace Sys2Proof.Machine

/-! ## The report -/

/-- The failure that a core adds to the report, its place beside it. -/
def failureOf (p : State × Nat) : Option (Nat × ErrorRecord) :=
  if p.1.st = .failed then some (p.2, p.1.err) else none

theorem failures_eq_of_withoutChannels (n : Network) :
    n.failures = (n.cores.map withoutChannels).zipIdx.filterMap failureOf := by
  rw [List.zipIdx_map, List.filterMap_map]
  rfl

theorem ChannelsOnly.failures_eq {n n' : Network} (h : ChannelsOnly n n') : n'.failures = n.failures := by
  obtain ⟨-, hcores⟩ := h
  rw [failures_eq_of_withoutChannels, failures_eq_of_withoutChannels, hcores]

theorem report_of_failures {n : Network} (h : n.failures ≠ []) : n.report = .failed n.failures :=
  if_pos h

theorem finished_of_failures {n : Network} (h : n.failures ≠ []) : n.finished = true := by
  simp [Network.finished, report_of_failures h]

/-! ## After a failure -/

theorem supervise_of_no_failures {n : Network} (h : n.failures = []) : n.supervise = n := if_pos h

theorem supervise_of_failures {n : Network} (h : n.failures ≠ []) :
    n.supervise = { n with stopped := List.replicate n.cores.length true } :=
  if_neg h

theorem stepCore_supervise {n : Network} (h : n.failures ≠ []) (i : Nat) : n.supervise.stepCore i = none := by
  rw [supervise_of_failures h, Option.eq_none_iff_forall_ne_some]
  intro n' hstep
  obtain ⟨s, t, hs, -, hrun, -⟩ := (stepCore_eq_some_iff _ _ _).1 hstep
  obtain ⟨hi, -⟩ := List.getElem?_eq_some_iff.1 hs
  simp [Network.isStopped, hi] at hrun

/-- One move after the host's duty is done: the cores are stopped, and the host's moves touch channels. -/
theorem channelsOnly_act_supervise {n : Network} (h : n.failures ≠ []) (m : Move) :
    ChannelsOnly n ((n.supervise.act m).getD n.supervise) := by
  have hstop : ChannelsOnly n n.supervise := by
    rw [supervise_of_failures h]
    exact ⟨rfl, rfl⟩
  cases hact : n.supervise.act m with
  | none => exact hstop
  | some n' =>
    cases m with
    | step i => cases (stepCore_supervise h i).symm.trans hact
    | host a => exact hstop.trans (hostAct_effect hact).channelsOnly

theorem channelsOnly_run {n : Network} (h : n.failures ≠ []) (ms : List Move) :
    ChannelsOnly n (Network.run ms n) := by
  induction ms generalizing n with
  | nil => exact .refl n
  | cons m ms ih =>
    have hmove := channelsOnly_act_supervise h m
    exact hmove.trans (ih (hmove.failures_eq.symm ▸ h))

/-- Settles O57: the stopped run changes channels and flags only, on which the report does not depend. -/
theorem aFailureStopsTheWholeRun : Obligations.AFailureStopsTheWholeRun := by
  intro n i s hs hst
  have hmem : (i, s.err) ∈ n.failures := (mem_failures_iff n i s.err).2 ⟨s, hs, hst, rfl⟩
  have hne : n.failures ≠ [] := List.ne_nil_of_mem hmem
  refine ⟨hmem, finished_of_failures hne, fun ms => ?_⟩
  have hrun := channelsOnly_run hne ms
  have hreport : (Network.run ms n).report = .failed (Network.run ms n).failures :=
    report_of_failures (hrun.failures_eq.symm ▸ hne)
  exact ⟨hrun.failures_eq ▸ hreport, fun k u => hrun.core⟩

/-! ## Every core waiting -/

theorem failures_of_allWaiting {n : Network} (h : n.allWaiting = true) : n.failures = [] := by
  rw [List.eq_nil_iff_forall_not_mem]
  rintro ⟨i, e⟩ hmem
  obtain ⟨s, hs, hst, -⟩ := (mem_failures_iff n i e).1 hmem
  obtain ⟨hblocked, -⟩ := (allWaiting_iff n).1 h s (List.mem_of_getElem? hs)
  cases hst.symm.trans hblocked

theorem report_of_allWaiting {n : Network} (h : n.allWaiting = true) (hne : n.cores ≠ []) :
    n.report = .going := by
  obtain ⟨s, hs⟩ := List.exists_mem_of_ne_nil _ hne
  obtain ⟨hblocked, -⟩ := (allWaiting_iff n).1 h s hs
  have hnot : ¬ ∀ u ∈ n.cores, u.st = .halted := fun hall => by cases (hall s hs).symm.trans hblocked
  simp [Network.report, failures_of_allWaiting h, hnot]

theorem stepCore_of_allWaiting {n : Network} (h : n.allWaiting = true) (i : Nat) : n.stepCore i = none := by
  rw [Option.eq_none_iff_forall_ne_some]
  intro n' hstep
  obtain ⟨s, t, hs, hmay, -⟩ := (stepCore_eq_some_iff _ _ _).1 hstep
  obtain ⟨hblocked, hin⟩ := (allWaiting_iff n).1 h s (List.mem_of_getElem? hs)
  simp [mayStep, hblocked, hin] at hmay

theorem run_of_allWaiting {n : Network} (h : n.allWaiting = true) {pending : List Move}
    (hpending : ∀ m ∈ pending, m.isHost = false) : Network.run pending n = n := by
  induction pending with
  | nil => rfl
  | cons m ms ih =>
    obtain ⟨hm, hms⟩ := List.forall_mem_cons.1 hpending
    cases m with
    | host a => cases hm
    | step i =>
      rw [Network.run, supervise_of_no_failures (failures_of_allWaiting h), Network.act,
        stepCore_of_allWaiting h, Option.getD_none, ih hms]

/-! ## The closed loop -/

/-- Every core waits on another core: its empty `IN` is some core's `OUT`. -/
structure ClosedWait (n : Network) : Prop where
  waiting : n.allWaiting = true
  nonempty : n.cores ≠ []
  linked : ∀ j, j < n.cores.length → ∃ i, n.reader i = some j

/-- The host has the writer role of no `IN`, there is no halted reader to collect from, and what it drains or stops
leaves every core waiting. -/
theorem HostEffect.closedWait {n n' : Network} {h : HostMove} (he : HostEffect n h n') (hn : ClosedWait n) :
    ClosedWait n' := by
  obtain ⟨hwait, hne, hloop⟩ := hn
  have hall := (allWaiting_iff n).1 hwait
  cases he with
  | fed j v hrole hj =>
    obtain ⟨i, hi⟩ := hloop j hj
    exact absurd hi (hrole i)
  | collected j s vs hs hst =>
    obtain ⟨hblocked, -⟩ := hall s (List.mem_of_getElem? hs)
    cases hst.symm.trans hblocked
  | stopped i => exact ⟨hwait, hne, hloop⟩
  | drained i s vs hs =>
    refine ⟨(allWaiting_iff _).2 fun u hu => ?_, by simpa using hne,
      fun j hj => hloop j (by simpa using hj)⟩
    obtain hu | rfl := List.mem_or_eq_of_mem_set hu
    · exact hall u hu
    · exact hall s (List.mem_of_getElem? hs)

theorem act_closedWait {n n' : Network} {m : Move} (hact : n.act m = some n') (hn : ClosedWait n) :
    ClosedWait n' := by
  cases m with
  | step i => cases (stepCore_of_allWaiting hn.waiting i).symm.trans hact
  | host h => exact (hostAct_effect hact).closedWait hn

theorem run_closedWait {n : Network} (hn : ClosedWait n) (ms : List Move) : ClosedWait (Network.run ms n) := by
  induction ms generalizing n with
  | nil => exact hn
  | cons m ms ih =>
    rw [Network.run, supervise_of_no_failures (failures_of_allWaiting hn.waiting)]
    cases hact : n.act m with
    | none => exact ih hn
    | some n' => exact ih (act_closedWait hact hn)

/-- Settles O58: a waiting core has no step; in a closed loop `ClosedWait` holds under every move. -/
theorem deadlockIsAStuckState : Obligations.DeadlockIsAStuckState := by
  intro n pending hne hdead
  simp only [Network.deadlocked, Bool.and_eq_true, List.all_eq_true, Bool.not_eq_true'] at hdead
  obtain ⟨hwait, hpending⟩ := hdead
  have hreport : n.report = .going := report_of_allWaiting hwait hne
  refine ⟨stepCore_of_allWaiting hwait, run_of_allWaiting hwait hpending, hreport, ?_, fun hloop ms => ?_⟩
  · simp [Network.finished, hreport]
  · obtain ⟨hwait', hne', -⟩ := run_closedWait ⟨hwait, hne, hloop⟩ ms
    exact ⟨hwait', report_of_allWaiting hwait' hne'⟩

end Sys2Proof.Machine
end

section
/-! The grammar of program text (spec/70_reset_and_hazards.md R202, R204): tokens, commas and blanks, each read
exactly as the grammar says. -/

namespace Sys2Proof.Machine

/-! ## Tokens -/

theorem wordOf_eq_some_iff (v : Int) (w : Word) : wordOf v = some w ↔ w.toInt = v := by
  rw [← narrow_ok_iff, wordOf]
  cases narrow v <;> simp

theorem digitValue_eq_some_iff (c : Char) (d : Nat) :
    digitValue c = some d ↔ IsDigit c ∧ d = c.toNat - 48 := by
  simp [digitValue, IsDigit, eq_comm]

theorem parseDigits_eq_some_iff (acc : Nat) (ds : List Char) (n : Nat) :
    parseDigits acc ds = some n ↔
      (∀ c ∈ ds, IsDigit c) ∧ n = ds.foldl (fun acc c => 10 * acc + (c.toNat - 48)) acc := by
  induction ds generalizing acc with
  | nil => simp [parseDigits, eq_comm]
  | cons c ds ih =>
    rw [parseDigits, List.forall_mem_cons, List.foldl_cons]
    cases hd : digitValue c with
    | none =>
      have hc : ¬ IsDigit c := fun hc => by simp [(digitValue_eq_some_iff c _).2 ⟨hc, rfl⟩] at hd
      simp [hc]
    | some d =>
      obtain ⟨hc, rfl⟩ := (digitValue_eq_some_iff c d).1 hd
      simp [hc, ih]

/-- `digit+` and its value (R202). -/
theorem parseNat_eq_some_iff (ds : List Char) (n : Nat) :
    parseNat ds = some n ↔ ds ≠ [] ∧ (∀ c ∈ ds, IsDigit c) ∧ n = decimalValue ds := by
  cases ds with
  | nil => simp [parseNat]
  | cons c ds =>
    rw [parseNat_eq_parseDigits (List.cons_ne_nil c ds), parseDigits_eq_some_iff]
    simp [decimalValue]

theorem parseNat_bind_eq_some_iff (ds : List Char) (f : Nat → Int) (w : Word) :
    ((parseNat ds).bind fun n => wordOf (f n)) = some w ↔
      ds ≠ [] ∧ (∀ c ∈ ds, IsDigit c) ∧ w.toInt = f (decimalValue ds) := by
  simp only [Option.bind_eq_some_iff, parseNat_eq_some_iff, wordOf_eq_some_iff]
  constructor
  · rintro ⟨n, ⟨hne, hdigits, rfl⟩, hw⟩
    exact ⟨hne, hdigits, hw⟩
  · rintro ⟨hne, hdigits, hw⟩
    exact ⟨_, ⟨hne, hdigits, rfl⟩, hw⟩

/-- The parser reads a token exactly when it is one of the grammar's, as its value. -/
theorem parseToken_eq_some_iff (tok : List Char) (w : Word) : parseToken tok = some w ↔ TokenOf tok w := by
  constructor
  · intro h
    cases tok with
    | nil => cases h
    | cons c ds =>
      rw [parseToken] at h
      split at h
      next hc =>
        obtain ⟨hne, hdigits, hw⟩ := (parseNat_bind_eq_some_iff ds (fun n => -(n : Int)) w).1 h
        exact ⟨ds, hne, hdigits, .inr ⟨by rw [hc], hw⟩⟩
      next =>
        obtain ⟨hne, hdigits, hw⟩ := (parseNat_bind_eq_some_iff (c :: ds) (fun n => (n : Int)) w).1 h
        exact ⟨c :: ds, hne, hdigits, .inl ⟨rfl, hw⟩⟩
  · rintro ⟨ds, hne, hdigits, ⟨rfl, hw⟩ | ⟨rfl, hw⟩⟩
    · rw [parseToken_digits hdigits]
      exact (parseNat_bind_eq_some_iff tok (fun n => (n : Int)) w).2 ⟨hne, hdigits, hw⟩
    · rw [parseToken_minus]
      exact (parseNat_bind_eq_some_iff ds (fun n => -(n : Int)) w).2 ⟨hne, hdigits, hw⟩

theorem parseTokens_eq_some_iff (toks : List (List Char)) (program : List Word) :
    parseTokens toks = some program ↔ List.Forall₂ TokenOf toks program := by
  induction toks generalizing program with
  | nil => simp [parseTokens, eq_comm]
  | cons tok toks ih =>
    rw [List.forall₂_cons_left_iff, parseTokens]
    simp only [← parseToken_eq_some_iff, ← ih]
    cases parseToken tok <;> cases parseTokens toks <;> simp [eq_comm]

/-- The characters of a token are no blanks and no commas. -/
theorem TokenOf.char {tok : List Char} {w : Word} (h : TokenOf tok w) {c : Char} (hc : c ∈ tok) :
    isBlank c = false ∧ c ≠ ',' := by
  have hdigit {c : Char} (hc : IsDigit c) : isBlank c = false ∧ c ≠ ',' :=
    ⟨hc.isBlank_eq_false, hc.ne (e := ',') (by decide)⟩
  obtain ⟨ds, -, hdigits, ⟨rfl, -⟩ | ⟨rfl, -⟩⟩ := h
  · exact hdigit (hdigits c hc)
  · obtain rfl | hc := List.mem_cons.1 hc
    · decide
    · exact hdigit (hdigits c hc)

theorem forall_mem_tokens {toks : List (List Char)} {program : List Word}
    (h : List.Forall₂ TokenOf toks program) :
    ∀ tok ∈ toks, ∀ c ∈ tok, isBlank c = false ∧ c ≠ ',' := by
  induction h with
  | nil => exact nofun
  | cons htok _ ih => exact List.forall_mem_cons.2 ⟨fun c => htok.char, ih⟩

/-! ## Commas -/

theorem joinCommas_cons {toks : List (List Char)} (h : toks ≠ []) (tok : List Char) :
    joinCommas (tok :: toks) = tok ++ ',' :: joinCommas toks := by
  cases toks with
  | nil => exact absurd rfl h
  | cons => rfl

theorem joinCommas_cons_cons (c : Char) (tok : List Char) (toks : List (List Char)) :
    joinCommas ((c :: tok) :: toks) = c :: joinCommas (tok :: toks) := by
  cases toks <;> rfl

theorem splitCommas_ne_nil (text : List Char) : splitCommas text ≠ [] := by
  cases text with
  | nil => exact nofun
  | cons c cs =>
    unfold splitCommas
    split
    · exact nofun
    · split <;> exact nofun

theorem joinCommas_splitCommas (text : List Char) : joinCommas (splitCommas text) = text := by
  induction text with
  | nil => rfl
  | cons c cs ih =>
    rw [splitCommas]
    split
    next hc => rw [joinCommas_cons (splitCommas_ne_nil cs), ih, hc, List.nil_append]
    next =>
      split
      next hnil => exact absurd hnil (splitCommas_ne_nil cs)
      next tok toks hcons => rw [joinCommas_cons_cons, ← hcons, ih]

theorem splitCommas_joinCommas {toks : List (List Char)} (hne : toks ≠ []) (h : ∀ tok ∈ toks, ',' ∉ tok) :
    splitCommas (joinCommas toks) = toks := by
  induction toks with
  | nil => exact absurd rfl hne
  | cons tok toks ih =>
    obtain ⟨htok, htoks⟩ := List.forall_mem_cons.1 h
    cases toks with
    | nil => exact splitCommas_of_notMem htok
    | cons u us =>
      exact (splitCommas_append_comma htok _).trans (congrArg _ (ih (List.cons_ne_nil u us) htoks))

theorem forall_mem_joinCommas {P : Char → Prop} (hcomma : P ',') {toks : List (List Char)}
    (h : ∀ tok ∈ toks, ∀ c ∈ tok, P c) : ∀ c ∈ joinCommas toks, P c := by
  induction toks with
  | nil => exact nofun
  | cons tok toks ih =>
    obtain ⟨htok, htoks⟩ := List.forall_mem_cons.1 h
    cases toks with
    | nil => exact htok
    | cons u us => exact List.forall_mem_append.2 ⟨htok, List.forall_mem_cons.2 ⟨hcomma, ih htoks⟩⟩

/-! ## Blanks -/

/-- The trim takes blanks only, from the two ends. -/
theorem exists_blanks_append_trim (text : List Char) : ∃ lead trail : List Char,
    text = lead ++ trim text ++ trail ∧ (∀ c ∈ lead, isBlank c = true) ∧
      ∀ c ∈ trail, isBlank c = true := by
  refine ⟨text.takeWhile isBlank, ((text.dropWhile isBlank).reverse.takeWhile isBlank).reverse, ?_,
    fun c hc => List.mem_takeWhile_imp hc, fun c hc => List.mem_takeWhile_imp (List.mem_reverse.1 hc)⟩
  rw [trim, List.append_assoc, ← List.reverse_append, List.takeWhile_append_dropWhile, List.reverse_reverse,
    List.takeWhile_append_dropWhile]

/-- Blanks around a text without blanks are what the trim takes. -/
theorem trim_append {lead body trail : List Char} (hlead : ∀ c ∈ lead, isBlank c = true)
    (hbody : ∀ c ∈ body, isBlank c = false) (htrail : ∀ c ∈ trail, isBlank c = true) :
    trim (lead ++ body ++ trail) = body := by
  rw [trim, List.append_assoc, List.dropWhile_append_of_pos hlead]
  cases body with
  | nil => simp [List.dropWhile_eq_nil_iff.2 htrail]
  | cons c cs =>
    have hc : isBlank c = false := hbody c List.mem_cons_self
    have htrail' : ∀ c ∈ trail.reverse, isBlank c = true := fun c h => htrail c (List.mem_reverse.1 h)
    have hbody' : ∀ d ∈ (c :: cs).reverse, isBlank d = false := fun d h => hbody d (List.mem_reverse.1 h)
    rw [List.cons_append, List.dropWhile_cons_of_neg (by simp [hc]), ← List.cons_append, List.reverse_append,
      List.dropWhile_append_of_pos htrail', dropWhile_isBlank_of_forall hbody', List.reverse_reverse]

/-- Settles O48: the text is its trim between blanks, the trim its tokens between commas, and each token is read as
the grammar says. -/
theorem textGrammarIsExactlyTheSpecs : Obligations.TextGrammarIsExactlyTheSpecs := by
  intro text program
  constructor
  · intro h
    obtain ⟨lead, trail, htext, hlead, htrail⟩ := exists_blanks_append_trim text
    exact ⟨lead, trim text, trail, splitCommas (trim text), htext, hlead, htrail,
      (joinCommas_splitCommas _).symm, splitCommas_ne_nil _, (parseTokens_eq_some_iff _ _).1 h⟩
  · rintro ⟨lead, body, trail, toks, rfl, hlead, htrail, rfl, hne, htoks⟩
    have hchars := forall_mem_tokens htoks
    have hblank := forall_mem_joinCommas (P := fun c => isBlank c = false) rfl
      fun tok htok c hc => (hchars tok htok c hc).left
    have hcomma : ∀ tok ∈ toks, ',' ∉ tok := fun tok htok hc => (hchars tok htok ',' hc).right rfl
    rw [parseText, trim_append hlead hblank htrail, splitCommas_joinCommas hne hcomma]
    exact (parseTokens_eq_some_iff toks program).2 htoks

/-- Settles O50: the newline is cut off, and the written token reads back. -/
theorem outputLineReadsBack : Obligations.OutputLineReadsBack := by
  intro v
  have hline : (renderLine v).reverse = '\n' :: (wordText v).reverse := by simp [renderLine]
  rw [parseLine, hline]
  simp [parseToken_wordText]

end Sys2Proof.Machine
end

section
/-! Creation of a core (spec/70_reset_and_hazards.md R201, R203 to R205): the loaded program, and the Failed
core of a malformed text. -/

namespace Sys2Proof.Machine

/-! ## The loaded program -/

/-- Loading from address `a` changes no cell below it. -/
theorem read_loadCells_of_lt {a b : Nat} (h : b < a) (vs : List Word) (m : Memory) :
    Memory.read (loadCells a vs m) b = Memory.read m b := by
  induction vs generalizing a m with
  | nil => rfl
  | cons v vs ih =>
    rw [loadCells, ih (by omega)]
    split
    · exact read_write_of_ne (by omega) m v
    · rfl

/-- Value `k` of a program that fits stands at address `a + k`; past the program memory is as it was. -/
theorem read_loadCells_add {a : Nat} {vs : List Word} (h : a + vs.length ≤ maxAddr + 1) (k : Nat) (m : Memory) :
    Memory.read (loadCells a vs m) (a + k) = vs.getD k (Memory.read m (a + k)) := by
  induction vs generalizing a k m with
  | nil => rfl
  | cons v vs ih =>
    rw [List.length_cons] at h
    rw [loadCells, if_pos (by omega)]
    cases k with
    | zero => rw [read_loadCells_of_lt (by omega), Nat.add_zero, read_write_same, List.getD_cons_zero]
    | succ k =>
      have hk : a + (k + 1) = a + 1 + k := by omega
      rw [hk, ih (by omega), List.getD_cons_succ, read_write_of_ne (by omega)]

/-- Settles O47: memory is loaded from address 0, and the rest is the reset state with the seeds. -/
theorem createdInstanceHoldsTheProgram : Obligations.CreatedInstanceHoldsTheProgram := by
  intro program seeds hfits
  refine ⟨fun a => ?_, rfl, rfl, rfl, rfl, rfl, rfl⟩
  simpa using read_loadCells_add (a := 0) (by omega) a []

/-! ## A malformed text -/

theorem createFromText_of_malformed {text : List Char} (h : parseText text = none) (seeds : List Word) :
    createFromText text seeds = raise .malformedProgramText (create [] seeds) := by
  rw [createFromText, h]

/-- Settles O51: the core is `raise` in a core with nothing loaded; each text of R204's table is run
through the parser. -/
theorem malformedTextGivesAFailedInstance : Obligations.MalformedTextGivesAFailedInstance := by
  refine ⟨fun text seeds h => ?failed, ?malformed, ?maxInt, ?minInt, ?blanks⟩
  case failed =>
    rw [createFromText_of_malformed h]
    exact ⟨rfl, rfl, rfl, rfl, rfl, fun _ => rfl, step_of_failed rfl⟩
  case malformed => decide
  case maxInt => decide
  case minInt => decide
  case blanks => decide

end Sys2Proof.Machine
end
